-- ==== Sys2Proof/Config.lean ====
section
/-! DEFINITION. The parameters of 00_scope.md rules R6 and R7. None of them is configurable; the two OPEN
capacities (TAG_MAXLEN, FIELD_MAXLEN) are no constants here: a model may take them unbounded (R7, decision D4), and
they are the lengths of the port arrays that `RequestPorts` holds (log entry 4). The block leaves no value free, so
this file holds no opaque constant. -/

namespace Sys2Proof.Config

/-- WORD_W: the Instruction Word has 32 bits and its rendering 32 characters (R6, R12). -/
abbrev wordChars : Nat := 32

/-- HEX_LEN: the Hex Word has 10 characters (R6, R13). -/
abbrev hexChars : Nat := 10

/-- NSLOTS: the number of field slots on the request port (R7, D2). -/
abbrev slots : Nat := 6

/-- The least TAG_MAXLEN an implementation may take (R7, D4). -/
abbrev tagMaxLeast : Nat := 3

/-- The least FIELD_MAXLEN an implementation may take (R7, D4). -/
abbrev fieldMaxLeast : Nat := 8

end Sys2Proof.Config
end

