-- ==== Sys2Proof/Word.lean ====
section
/-! DEFINITION. The word, character and string types. -/

namespace Sys2Proof

/-- One 8-bit lane of a port, or one byte of a frame (log entry 3). -/
abbrev Byte := BitVec 8

/-- One character code: every character on every port is one 8-bit code (10_state.md R17, CHAR_W of R7). -/
abbrev Code := BitVec 8

/-- A character string; the head of the list is the first (leftmost) character (00_scope.md section 5.1). -/
abbrev Str := List Code

/-- The Instruction Word, `word[31:0]` (10_state.md R12). -/
abbrev Word := BitVec 32

end Sys2Proof
end

