-- ==== Sys2Proof/Syntax.lean ====
section
/-! DEFINITION. The syntax: field names, formats, a request, the fourteen operations of spec/opcode_table.json, and
the ports on which an operation is presented. -/

namespace Sys2Proof

/-- The seven field names, in the order of their ids (10_state.md R10, R16). -/
inductive FieldName
  | funct7
  | funct3
  | opcode
  | rd
  | rs1
  | rs2
  | imm
deriving DecidableEq, Repr

/-- The decimal fields (10_state.md R10): the only labels DEC2BIN may carry (40_field_primitives.md R46). -/
inductive DecimalField
  | rd
  | rs1
  | rs2
  | imm
deriving DecidableEq, Repr

/-- The binary-string fields (10_state.md R10): the only labels BINVAL may carry (40_field_primitives.md R46). -/
inductive BinaryField
  | funct7
  | funct3
  | opcode
deriving DecidableEq, Repr

/-- The closed set of formats, in the order of their ids (00_scope.md R5, 10_state.md R16). -/
inductive Format
  | R
  | I
  | S
  | SB
  | U
  | UJ
deriving DecidableEq, Repr

/-- A request as the strings its ports carry: `tag` and `slot<0>` to `slot<5>` (10_state.md R14). An empty slot is
one that is not supplied. -/
structure Request where
  tag   : Str
  slot0 : Str
  slot1 : Str
  slot2 : Str
  slot3 : Str
  slot4 : Str
  slot5 : Str
deriving DecidableEq, Repr

/-- The two forms in which DEC2BIN takes its value, "as string or integer" (40_field_primitives.md R42, R47). -/
inductive DecOperand
  | str (s : Str)
  | int (v : Int)
deriving DecidableEq, Repr

/-- The operations, one constructor per row of spec/opcode_table.json, each with its operands in slot order (R25).
`encode` is the block's one externally visible operation (43_dispatcher.md R65, R66); the others are its parts,
exposed on their own (log entry 2). `label` is the field name that an error of DEC2BIN or BINVAL carries, `none`
where the caller names no field (as in R60's `BINVAL(-, …)`); `w` is the target width. -/
inductive Instr
  | encR (funct7 rs2 rs1 funct3 rd opcode : Str)
  | encI (imm rs1 funct3 rd opcode : Str)
  | encS (imm rs2 rs1 funct3 opcode : Str)
  | encSB (imm rs2 rs1 funct3 opcode : Str)
  | encU (imm rd opcode : Str)
  | encUJ (imm rd opcode : Str)
  | parseDec (str : Str)
  | dec2bin (label : Option FieldName) (value : DecOperand) (w : Nat)
  | binval (label : Option FieldName) (str : Str) (w : Nat)
  | binstr (word : Word)
  | hex (word : Word)
  | hexs (str : Str)
  | resolve (tag : Str)
  | encode (request : Request)
deriving DecidableEq, Repr

/-- One character-array port with its length (10_state.md R14): `str` is the string it carries (`len` is its length)
and `ignored` the characters at and beyond `len`, which no rule reads (93 U7). -/
structure CharPort where
  str     : Str
  ignored : Str
deriving DecidableEq, Repr

/-- The request ports of 10_state.md R14. -/
structure RequestPorts where
  tag  : CharPort
  fld0 : CharPort
  fld1 : CharPort
  fld2 : CharPort
  fld3 : CharPort
  fld4 : CharPort
  fld5 : CharPort
deriving DecidableEq, Repr

/-- Which block is driven (log entry 2): the composed ENCODER, or one of its parts exposed on its own. -/
inductive BenchUnit
  | composed
  | encR
  | encI
  | encS
  | encSB
  | encU
  | encUJ
  | parseDec
  | dec2bin
  | binval
  | binstr
  | hex
  | hexs
  | resolve
deriving DecidableEq, Repr

/-- DESIGN CHOICE (log entry 2), the MODEL's own ports: which block is driven, and the operands that a sub-block takes
beside the request's strings when it is exposed on its own. Every value of these ports presents an operation: the
labels are those that R46 lets each primitive carry, and DEC2BIN's width is positive (R42), so it is held less one. -/
structure BenchPorts where
  unit         : BenchUnit
  /-- The field name DEC2BIN labels an error with. -/
  decLabel     : Option DecimalField
  /-- DEC2BIN's target width, less one. -/
  decWidthPred : Nat
  /-- DEC2BIN's integer operand (R47); `none` where its operand is the string on slot 0. -/
  decInt       : Option Int
  /-- The field name BINVAL labels an error with. -/
  binLabel     : Option BinaryField
  /-- BINVAL's expected width. -/
  binWidth     : Nat
  /-- The word that BINSTR and HEX render. -/
  word         : Word
deriving DecidableEq, Repr

/-- All the input ports: what one presented operation is read from. -/
structure Ports where
  bench   : BenchPorts
  request : RequestPorts
deriving DecidableEq, Repr

end Sys2Proof
end

