-- ==== Sys2Proof/WellFormed.lean ====
section
/-! DEFINITION. Which terms of `Instr` are operations of the block. -/

namespace Sys2Proof

/-- The decimal fields (10_state.md R10): `rd`, `rs1`, `rs2`, `imm`. -/
def FieldName.isDecimal : FieldName → Bool
  | .rd | .rs1 | .rs2 | .imm => true
  | .funct7 | .funct3 | .opcode => false

/-- The binary-string fields (10_state.md R10): `funct3`, `funct7`, `opcode`. A field has exactly one
representation, which never changes with the format. -/
def FieldName.isBinary (f : FieldName) : Bool := !f.isDecimal

/-- The name of a decimal field. -/
def DecimalField.name : DecimalField → FieldName
  | .rd  => .rd
  | .rs1 => .rs1
  | .rs2 => .rs2
  | .imm => .imm

/-- The name of a binary-string field. -/
def BinaryField.name : BinaryField → FieldName
  | .funct7 => .funct7
  | .funct3 => .funct3
  | .opcode => .opcode

/-- A label DEC2BIN may carry: a decimal field, or none (R46: never `funct3`, `funct7`, `opcode`). -/
def decimalLabel : Option FieldName → Bool
  | none   => true
  | some f => f.isDecimal

/-- A label BINVAL may carry: a binary-string field, or none (R46: never `rd`, `rs1`, `rs2`, `imm`). -/
def binaryLabel : Option FieldName → Bool
  | none   => true
  | some f => f.isBinary

/-- Well-formedness. DEC2BIN's width is "a positive integer" (R42); R45 asks that of no width of BINVAL's, and its
pseudocode runs at 0 too (log entry 10). The labels are R46's. Every string is a legal operand of every operation (43_dispatcher.md R69). -/
def Instr.wf : Instr → Bool
  | .encR _ _ _ _ _ _    => true
  | .encI _ _ _ _ _      => true
  | .encS _ _ _ _ _      => true
  | .encSB _ _ _ _ _     => true
  | .encU _ _ _          => true
  | .encUJ _ _ _         => true
  | .parseDec _          => true
  | .dec2bin label _ w   => decimalLabel label && decide (0 < w)
  | .binval label _ _    => binaryLabel label
  | .binstr _            => true
  | .hex _               => true
  | .hexs _              => true
  | .resolve _           => true
  | .encode _            => true

end Sys2Proof
end

