-- ==== Sys2Proof/Decode.lean ====
section
/-! DEFINITION. Reading the presented operation off the ports, and driving the ports with one.

The composed ENCODER has one operation, selected by nothing: the request ports carry a request, and the operation is
ENCODE (43_dispatcher.md R65, R66). The other units are the sub-blocks exposed on their own (log entry 2). The byte
frame below the ports is the model's own too (log entry 3): it exists so that an operation can be written as a number.
Every value of the ports presents an operation; a byte frame may name none, and is then rejected by name. -/

namespace Sys2Proof

/-- Why a byte frame names no operation (log entry 10). No value of the ports is rejected. -/
inductive DecodeError
  /-- The unit lane is above 13. -/
  | unknownUnit (code : Byte)
  /-- The label lane is above 7, the last field id of R16. -/
  | unknownLabel (code : Byte)
  /-- The form lane is above 2. -/
  | unknownForm (code : Byte)
  /-- DEC2BIN with width 0 (R42: the width is a positive integer). -/
  | zeroWidth
  /-- DEC2BIN labelled with a binary-string field (R46). -/
  | labelNotDecimal (f : FieldName)
  /-- BINVAL labelled with a decimal field (R46). -/
  | labelNotBinary (f : FieldName)
deriving DecidableEq, Repr

/-! ## Ports to operation -/

/-- The request the request ports carry: characters at and beyond a port's length are ignored (10_state.md R14). -/
def RequestPorts.request (p : RequestPorts) : Request :=
  { tag := p.tag.str, slot0 := p.fld0.str, slot1 := p.fld1.str, slot2 := p.fld2.str,
    slot3 := p.fld3.str, slot4 := p.fld4.str, slot5 := p.fld5.str }

/-- DEC2BIN's operand on the bench ports: the integer, or the string on slot 0 (R42, R47). -/
def BenchPorts.decOperand (b : BenchPorts) (slot0 : Str) : DecOperand :=
  match b.decInt with
  | some v => .int v
  | none   => .str slot0

/-- The operation the ports present; there always is one. A port that the selected unit does not read is ignored (R68
for the slots of a request). -/
def decode (p : Ports) : Instr :=
  let b := p.bench
  let q := p.request.request
  match b.unit with
  | .composed => .encode q
  | .encR     => .encR q.slot0 q.slot1 q.slot2 q.slot3 q.slot4 q.slot5
  | .encI     => .encI q.slot0 q.slot1 q.slot2 q.slot3 q.slot4
  | .encS     => .encS q.slot0 q.slot1 q.slot2 q.slot3 q.slot4
  | .encSB    => .encSB q.slot0 q.slot1 q.slot2 q.slot3 q.slot4
  | .encU     => .encU q.slot0 q.slot1 q.slot2
  | .encUJ    => .encUJ q.slot0 q.slot1 q.slot2
  | .parseDec => .parseDec q.slot0
  | .dec2bin  => .dec2bin (b.decLabel.map DecimalField.name) (b.decOperand q.slot0) (b.decWidthPred + 1)
  | .binval   => .binval (b.binLabel.map BinaryField.name) q.slot0 b.binWidth
  | .binstr   => .binstr b.word
  | .hex      => .hex b.word
  | .hexs     => .hexs q.slot0
  | .resolve  => .resolve q.tag

/-! ## Operation to ports -/

/-- A port that carries exactly `s`, with no ignored character. -/
def CharPort.ofStr (s : Str) : CharPort := { str := s, ignored := [] }

/-- The length port of R14 (`tag_len`, `fld_len<i>`). -/
def CharPort.len (p : CharPort) : Nat := p.str.length

/-- The character array of R14 (`tag_chr`, `fld_chr<i>`); its length is the port's capacity. -/
def CharPort.chr (p : CharPort) : List Code := p.str ++ p.ignored

/-- A port from the values on its wires: `len` characters are the string, the others are ignored (R14). DESIGN CHOICE
(log entry 21): R14 gives no meaning to a length above the capacity, which length wires may be wide enough to carry;
here the string is then all the characters there are. -/
def CharPort.ofWires (len : Nat) (chr : List Code) : CharPort :=
  { str := chr.take len, ignored := chr.drop len }

/-- The request ports have the capacities TAG_MAXLEN and FIELD_MAXLEN (00_scope.md R7, named parameters). -/
def RequestPorts.hasCapacity (p : RequestPorts) (tagMaxLen fieldMaxLen : Nat) : Bool :=
  decide (p.tag.chr.length = tagMaxLen)
    && [p.fld0, p.fld1, p.fld2, p.fld3, p.fld4, p.fld5].all fun f => decide (f.chr.length = fieldMaxLen)

/-- A request on the request ports, with no ignored character. -/
def RequestPorts.ofRequest (q : Request) : RequestPorts :=
  { tag := .ofStr q.tag, fld0 := .ofStr q.slot0, fld1 := .ofStr q.slot1, fld2 := .ofStr q.slot2,
    fld3 := .ofStr q.slot3, fld4 := .ofStr q.slot4, fld5 := .ofStr q.slot5 }

/-- The bench ports when the composed ENCODER is driven. -/
def BenchPorts.composed : BenchPorts :=
  { unit := .composed, decLabel := none, decWidthPred := 0, decInt := none, binLabel := none, binWidth := 0, word := 0 }

/-- A list of slot strings read as the six slots: "a list shorter than six elements is presented with its missing
trailing slots empty" (10_state.md R14); an element beyond the sixth is not representable (D8). -/
def Request.ofFields (tag : Str) (fields : List Str) : Request :=
  { tag := tag, slot0 := fields.getD 0 [], slot1 := fields.getD 1 [], slot2 := fields.getD 2 [],
    slot3 := fields.getD 3 [], slot4 := fields.getD 4 [], slot5 := fields.getD 5 [] }

/-- Drive unit `u` with slot strings only. -/
def Ports.ofSlots (u : BenchUnit) (fields : List Str) : Ports :=
  { bench := { BenchPorts.composed with unit := u },
    request := .ofRequest (.ofFields [] fields) }

/-- The decimal field of a name; `none` for the name of a binary-string field, which DEC2BIN never carries (R46). -/
def FieldName.decimal? : FieldName → Option DecimalField
  | .rd     => some .rd
  | .rs1    => some .rs1
  | .rs2    => some .rs2
  | .imm    => some .imm
  | .funct7 => none
  | .funct3 => none
  | .opcode => none

/-- The binary-string field of a name; `none` for the name of a decimal field, which BINVAL never carries (R46). -/
def FieldName.binary? : FieldName → Option BinaryField
  | .funct7 => some .funct7
  | .funct3 => some .funct3
  | .opcode => some .opcode
  | .rd     => none
  | .rs1    => none
  | .rs2    => none
  | .imm    => none

/-- The integer operand of DEC2BIN, where it is one. -/
def DecOperand.int? : DecOperand → Option Int
  | .str _ => none
  | .int v => some v

/-- The string operand of DEC2BIN, empty where it is an integer. -/
def DecOperand.slot : DecOperand → Str
  | .str s => s
  | .int _ => []

/-- The ports that present a well-formed operation. (This is the encoder of the model's operations, not the hardware's
ENCODE, which is the constructor `Instr.encode`.) -/
def encode : Instr → Ports
  | .encode q => { bench := .composed, request := .ofRequest q }
  | .encR funct7 rs2 rs1 funct3 rd opcode => .ofSlots .encR [funct7, rs2, rs1, funct3, rd, opcode]
  | .encI imm rs1 funct3 rd opcode => .ofSlots .encI [imm, rs1, funct3, rd, opcode]
  | .encS imm rs2 rs1 funct3 opcode => .ofSlots .encS [imm, rs2, rs1, funct3, opcode]
  | .encSB imm rs2 rs1 funct3 opcode => .ofSlots .encSB [imm, rs2, rs1, funct3, opcode]
  | .encU imm rd opcode => .ofSlots .encU [imm, rd, opcode]
  | .encUJ imm rd opcode => .ofSlots .encUJ [imm, rd, opcode]
  | .parseDec s => .ofSlots .parseDec [s]
  | .dec2bin label value w =>
    { bench := { BenchPorts.composed with
        unit := .dec2bin, decLabel := label.bind FieldName.decimal?, decWidthPred := w - 1, decInt := value.int? },
      request := .ofRequest (.ofFields [] [value.slot]) }
  | .binval label s w =>
    { bench := { BenchPorts.composed with
        unit := .binval, binLabel := label.bind FieldName.binary?, binWidth := w },
      request := .ofRequest (.ofFields [] [s]) }
  | .binstr w => { bench := { BenchPorts.composed with unit := .binstr, word := w },
                   request := .ofRequest (.ofFields [] []) }
  | .hex w => { bench := { BenchPorts.composed with unit := .hex, word := w },
                request := .ofRequest (.ofFields [] []) }
  | .hexs s => .ofSlots .hexs [s]
  | .resolve t => { bench := { BenchPorts.composed with unit := .resolve },
                    request := .ofRequest (.ofFields t []) }

/-! ## The byte frame (log entry 3)

Lanes in this order: unit, label, width, form, mag, word (most significant byte first), the tag, the six slots. Units
are numbered 0 for the composed ENCODER and 1 to 13 for the other rows of spec/opcode_table.json in its order; labels
are the field ids of R16; form 0 is DEC2BIN's string, form 1 the integer `mag`, form 2 the integer `-(mag + 1)`. A
number is a run of bytes 255, each standing for 255, closed by one byte below 255; a string is its length and then its
characters. A byte the frame does not hold reads as 0, so that every byte string has lanes. -/

/-- The lanes of a byte frame. -/
structure Frame where
  unit    : Byte
  label   : Byte
  width   : Nat
  form    : Byte
  mag     : Nat
  word    : Word
  request : Request
deriving DecidableEq, Repr

/-- Field ids (10_state.md R16): 0 names no field. -/
def fieldId : Option FieldName → BitVec 3
  | none         => 0
  | some .funct7 => 1
  | some .funct3 => 2
  | some .opcode => 3
  | some .rd     => 4
  | some .rs1    => 5
  | some .rs2    => 6
  | some .imm    => 7

/-- Format ids (10_state.md R16); internal to DISPATCH, on no port. -/
def Format.id : Format → BitVec 3
  | .R  => 0
  | .I  => 1
  | .S  => 2
  | .SB => 3
  | .U  => 4
  | .UJ => 5

/-- The field named by a label lane. -/
def decodeLabel (b : Byte) : Except DecodeError (Option FieldName) :=
  match b.toNat with
  | 0 => .ok none
  | 1 => .ok (some .funct7)
  | 2 => .ok (some .funct3)
  | 3 => .ok (some .opcode)
  | 4 => .ok (some .rd)
  | 5 => .ok (some .rs1)
  | 6 => .ok (some .rs2)
  | 7 => .ok (some .imm)
  | _ => .error (.unknownLabel b)

def encodeLabel (f : Option FieldName) : Byte := (fieldId f).setWidth 8

/-- DEC2BIN's operand: form 0 is the string on slot 0, form 1 the integer `mag`, form 2 the integer `-(mag + 1)`. -/
def decodeOperand (form : Byte) (mag : Nat) (s : Str) : Except DecodeError DecOperand :=
  match form.toNat with
  | 0 => .ok (.str s)
  | 1 => .ok (.int (Int.ofNat mag))
  | 2 => .ok (.int (Int.negSucc mag))
  | _ => .error (.unknownForm form)

def checkWidth (w : Nat) : Except DecodeError Unit :=
  if w = 0 then .error .zeroWidth else .ok ()

def checkDecimalLabel : Option FieldName → Except DecodeError Unit
  | none   => .ok ()
  | some f => if f.isDecimal then .ok () else .error (.labelNotDecimal f)

def checkBinaryLabel : Option FieldName → Except DecodeError Unit
  | none   => .ok ()
  | some f => if f.isBinary then .ok () else .error (.labelNotBinary f)

/-- DEC2BIN's lanes. -/
def Frame.decodeDec2bin (f : Frame) : Except DecodeError Instr := do
  let label ← decodeLabel f.label
  checkDecimalLabel label
  checkWidth f.width
  let value ← decodeOperand f.form f.mag f.request.slot0
  return .dec2bin label value f.width

/-- BINVAL's lanes. -/
def Frame.decodeBinval (f : Frame) : Except DecodeError Instr := do
  let label ← decodeLabel f.label
  checkBinaryLabel label
  return .binval label f.request.slot0 f.width

/-- The operation a frame names. Total: a frame that names none is rejected by name. A lane that the selected unit does
not read is ignored. -/
def Frame.decode (f : Frame) : Except DecodeError Instr :=
  let q := f.request
  match f.unit.toNat with
  | 0  => .ok (.encode q)
  | 1  => .ok (.encR q.slot0 q.slot1 q.slot2 q.slot3 q.slot4 q.slot5)
  | 2  => .ok (.encI q.slot0 q.slot1 q.slot2 q.slot3 q.slot4)
  | 3  => .ok (.encS q.slot0 q.slot1 q.slot2 q.slot3 q.slot4)
  | 4  => .ok (.encSB q.slot0 q.slot1 q.slot2 q.slot3 q.slot4)
  | 5  => .ok (.encU q.slot0 q.slot1 q.slot2)
  | 6  => .ok (.encUJ q.slot0 q.slot1 q.slot2)
  | 7  => .ok (.parseDec q.slot0)
  | 8  => f.decodeDec2bin
  | 9  => f.decodeBinval
  | 10 => .ok (.binstr f.word)
  | 11 => .ok (.hex f.word)
  | 12 => .ok (.hexs q.slot0)
  | 13 => .ok (.resolve q.tag)
  | _  => .error (.unknownUnit f.unit)

/-- A frame of unit `u` with slot strings only. -/
def Frame.ofSlots (u : Byte) (fields : List Str) : Frame :=
  { unit := u, label := 0, width := 0, form := 0, mag := 0, word := 0, request := .ofFields [] fields }

/-- The form and mag lanes of an operand of DEC2BIN. -/
def encodeOperand : DecOperand → Byte × Nat
  | .str _             => (0, 0)
  | .int (.ofNat n)    => (1, n)
  | .int (.negSucc n)  => (2, n)

/-- The frame of an operation. An ill-formed one has a frame too, which the decoder rejects. -/
def Frame.encode : Instr → Frame
  | .encode q => { Frame.ofSlots 0 [] with request := q }
  | .encR funct7 rs2 rs1 funct3 rd opcode => .ofSlots 1 [funct7, rs2, rs1, funct3, rd, opcode]
  | .encI imm rs1 funct3 rd opcode => .ofSlots 2 [imm, rs1, funct3, rd, opcode]
  | .encS imm rs2 rs1 funct3 opcode => .ofSlots 3 [imm, rs2, rs1, funct3, opcode]
  | .encSB imm rs2 rs1 funct3 opcode => .ofSlots 4 [imm, rs2, rs1, funct3, opcode]
  | .encU imm rd opcode => .ofSlots 5 [imm, rd, opcode]
  | .encUJ imm rd opcode => .ofSlots 6 [imm, rd, opcode]
  | .parseDec s => .ofSlots 7 [s]
  | .dec2bin label value w =>
    { Frame.ofSlots 8 [value.slot] with
      label := encodeLabel label, width := w, form := (encodeOperand value).1, mag := (encodeOperand value).2 }
  | .binval label s w => { Frame.ofSlots 9 [s] with label := encodeLabel label, width := w }
  | .binstr w => { Frame.ofSlots 10 [] with word := w }
  | .hex w => { Frame.ofSlots 11 [] with word := w }
  | .hexs s => .ofSlots 12 [s]
  | .resolve t => { Frame.ofSlots 13 [] with request := .ofFields t [] }

def takeByte : List Byte → Byte × List Byte
  | []      => (0, [])
  | b :: bs => (b, bs)

def takeNat : List Byte → Nat × List Byte
  | []      => (0, [])
  | b :: bs => if b = 255#8 then ((takeNat bs).1 + 255, (takeNat bs).2) else (b.toNat, bs)

def takeStr (bs : List Byte) : Str × List Byte :=
  let n := (takeNat bs).1
  let rest := (takeNat bs).2
  ((rest ++ List.replicate (n - rest.length) 0).take n, rest.drop n)

def takeWord (bs : List Byte) : Word × List Byte :=
  let b0 := takeByte bs
  let b1 := takeByte b0.2
  let b2 := takeByte b1.2
  let b3 := takeByte b2.2
  ((b0.1 ++ b1.1 ++ b2.1 ++ b3.1 : BitVec 32), b3.2)

/-- The lanes of a byte string. Total. -/
def Frame.ofBytes (bs : List Byte) : Frame :=
  let (unit, bs) := takeByte bs
  let (label, bs) := takeByte bs
  let (width, bs) := takeNat bs
  let (form, bs) := takeByte bs
  let (mag, bs) := takeNat bs
  let (word, bs) := takeWord bs
  let (tag, bs) := takeStr bs
  let (slot0, bs) := takeStr bs
  let (slot1, bs) := takeStr bs
  let (slot2, bs) := takeStr bs
  let (slot3, bs) := takeStr bs
  let (slot4, bs) := takeStr bs
  let (slot5, _) := takeStr bs
  { unit, label, width, form, mag, word, request := { tag, slot0, slot1, slot2, slot3, slot4, slot5 } }

def putNat (n : Nat) : List Byte := List.replicate (n / 255) 255#8 ++ [BitVec.ofNat 8 (n % 255)]

def putStr (s : Str) : List Byte := putNat s.length ++ s

def putWord (w : Word) : List Byte :=
  [w.extractLsb 31 24, w.extractLsb 23 16, w.extractLsb 15 8, w.extractLsb 7 0]

/-- The bytes of a frame. -/
def Frame.toBytes (f : Frame) : List Byte :=
  [f.unit, f.label] ++ putNat f.width ++ [f.form] ++ putNat f.mag ++ putWord f.word ++ putStr f.request.tag
    ++ putStr f.request.slot0 ++ putStr f.request.slot1 ++ putStr f.request.slot2
    ++ putStr f.request.slot3 ++ putStr f.request.slot4 ++ putStr f.request.slot5

/-- The decoder on bytes. -/
def decodeBytes (bs : List Byte) : Except DecodeError Instr := (Frame.ofBytes bs).decode

/-- The encoder to bytes. -/
def encodeBytes (i : Instr) : List Byte := (Frame.encode i).toBytes

/-- The bytes of a number of `nbits` bits, the first byte the least significant. -/
def frameBytes (nbits w : Nat) : List Byte :=
  (List.range ((nbits + 7) / 8)).map fun k => BitVec.ofNat 8 (w >>> (8 * k))

/-- The operation whose frame is the number `w` (every frame byte beyond `nbits` is 0). -/
def decodeTableWord (nbits w : Nat) : Option Instr :=
  match decodeBytes (frameBytes nbits w) with
  | .ok i    => some i
  | .error _ => none

end Sys2Proof
end

