-- ==== Sys2Proof/Machine/State.lean ====
section
/-! DEFINITION. The state, its reset value, and the ways a step can stop.

The ENCODER holds no state (10_state.md R8, R9): State is what is presented on its input ports, the request (R14) and
the model's own bench ports (log entry 2), and the response a caller last read off it. The response ports themselves
(R15) are stored nowhere: they are at every instant a function of the request ports (R19, R86), `State.response` in
Machine/Encoder.lean. -/

namespace Sys2Proof.Machine

/-- The four error kinds, the closed taxonomy of 60_exceptions.md R70. -/
inductive ErrKind
  | range
  | format
  | unsupportedFormat
  | missingField
deriving DecidableEq, Repr

/-- The seven reasons of 60_exceptions.md R70. -/
inductive ErrReason
  | negative
  | tooWide
  | badBinaryPattern
  | badDecimalSyntax
  | wordLength
  | unknownTag
  | emptyField
deriving DecidableEq, Repr

/-- What an error records: the triple and nothing else (60_exceptions.md R70); `field` is `none` where the error
names no field. -/
structure EncodeError where
  kind   : ErrKind
  field  : Option FieldName
  reason : ErrReason
deriving DecidableEq, Repr

/-- What the response ports carry (10_state.md R15). `encoded` and `failed` are the two arms of ENCODE's response
(43_dispatcher.md R69); a failed response has no word, no `binary` and no `hex` (60_exceptions.md R77). The other
constructors are the outputs of the sub-blocks exposed on their own (log entry 2). -/
inductive Response
  /-- ENCODE's success: the Instruction Word, its binary rendering and the Hex Word. -/
  | encoded (word : Word) (binary hex : Str)
  /-- A failure of any operation. -/
  | failed (e : EncodeError)
  /-- PARSE_DEC's value (R41). -/
  | integer (v : Int)
  /-- DEC2BIN's and BINVAL's vector (R42, R45). -/
  | bits (width : Nat) (value : BitVec width)
  /-- An assembler's word (R51 to R56). -/
  | word (w : Word)
  /-- BINSTR's, HEX's and HEXS's characters (R60 to R62). -/
  | text (s : Str)
  /-- RESOLVE's format (R67). -/
  | format (f : Format)
deriving DecidableEq, Repr

/-- Nothing stops this machine with a fault: "no error is allowed to propagate as an unrecoverable fault out of the
encoder", "Nothing in the core is fatal" (43_dispatcher.md R69, 60_exceptions.md R76). No constructor, so no meaning
and no step can answer a fault (log entry 7; safe and unsafe sides are said there). -/
inductive Fault
deriving DecidableEq, Repr

/-- Why the model gives a presentation no meaning. -/
inductive Refusal
  /-- Raised by `exec` for an operation that has no meaning yet. Safe. No arm raises it. -/
  | notModelled (mnemonic : String)
  /-- Raised by HEXS on 32 characters of which one is not `'0'` or `'1'`: "a model must not give it a value"
  (42_hex_renderer.md R62, D16, 93 U3: refuse). Safe. Unreachable through ENCODE (log entry 9). -/
  | hexsContent
deriving DecidableEq, Repr

/-- What is presented on the input ports, and what was last read off the response ports. -/
structure State where
  /-- The request ports (10_state.md R14). -/
  request  : RequestPorts
  /-- The model's own ports: which block is driven (log entry 2). -/
  bench    : BenchPorts
  /-- The MODEL's own record of the response that the caller read at the last step (log entry 1); no port and no storage
  of the hardware's. -/
  sampled  : Response
deriving DecidableEq, Repr

/-- All input ports. -/
def State.ports (s : State) : Ports := { bench := s.bench, request := s.request }

/-- A port of capacity `n` that carries the empty string. -/
def emptyPort (n : Nat) : CharPort := { str := [], ignored := List.replicate n 0 }

/-- DESIGN CHOICE (log entry 5): the request ports at reset carry the empty tag and six empty slots, at the least
capacities of 00_scope.md R7. The spec gives the block no reset state (R19, R86). -/
def resetRequest : RequestPorts :=
  { tag := emptyPort Config.tagMaxLeast, fld0 := emptyPort Config.fieldMaxLeast,
    fld1 := emptyPort Config.fieldMaxLeast, fld2 := emptyPort Config.fieldMaxLeast,
    fld3 := emptyPort Config.fieldMaxLeast, fld4 := emptyPort Config.fieldMaxLeast,
    fld5 := emptyPort Config.fieldMaxLeast }

/-- DESIGN CHOICE and DEDUCED (log entry 5): the composed ENCODER is driven, with `resetRequest`, and the record is the
response to it: at reset "the response is still that function of whatever the request ports carry"
(70_reset_and_hazards.md R86, 10_state.md R19), and the empty tag is an unknown tag (R36, R67). -/
def State.reset : State :=
  { request  := resetRequest
    bench    := .composed
    sampled  := .failed { kind := .unsupportedFormat, field := none, reason := .unknownTag } }

end Sys2Proof.Machine
end

