-- ==== Sys2Proof/Machine/Ops.lean ====
section
/-! DEFINITION. The shared operations: character codes, results, the field primitives PARSE_DEC, DEC2BIN and BINVAL,
the six word layouts, the renderers, RESOLVE's character fold, and delivering a response.

There is no memory and no register to operate on (20_memory.md R20, 10_state.md R9). -/

namespace Sys2Proof.Machine

/-! ## Character codes (10_state.md R17; ASCII by the spec's decision D3, log entry 11) -/

/-- `'0'`, the first of the ten decimal digits 0x30 to 0x39. -/
def ch0 : Code := 0x30
/-- `'1'`. -/
def ch1 : Code := 0x31
/-- `'-'`. -/
def chMinus : Code := 0x2D
/-- `'x'`. -/
def chX : Code := 0x78
def chI : Code := 0x69
def chB : Code := 0x62
def chJ : Code := 0x6A
def chR : Code := 0x72
def chS : Code := 0x73
def chU : Code := 0x75

/-! ## Results and responses -/

/-- A successful value or a failure (00_scope.md section 5.2: `ok(x)`, `fail K(field, reason)`). A `let x ← e` on a
failed `e` ends the operation with that same failure (41_format_assemblers.md R50). -/
abbrev Result (α : Type) := Except EncodeError α

def fail {α : Type} (kind : ErrKind) (field : Option FieldName) (reason : ErrReason) : Result α :=
  .error { kind, field, reason }

/-- What a meaning and a step answer. -/
abbrev StepOutcome := Host.Outcome State Fault Refusal

/-- The caller reads a response. -/
def State.sample (s : State) (r : Response) : State := { s with sampled := r }

/-- TAKING AN ERROR (60_exceptions.md R76, R77): the response is `ok = 0` and the error triple "and that is all". Nothing
is saved, no mode changes and control goes nowhere; there is no return from it (R78), only a new request. -/
def State.takeError (s : State) (e : EncodeError) : State := { s with sampled := .failed e }

/-- The response a result is: a success as it is, a failure as its triple (43_dispatcher.md R66). -/
def Result.response (r : Result Response) : Response :=
  match r with
  | .ok x    => x
  | .error e => .failed e

/-- End an operation: a success is read by the caller, a failure is taken as an error. Never a stop
(43_dispatcher.md R69). -/
def deliver (r : Result Response) (s : State) : StepOutcome :=
  match r with
  | .ok x    => .next (s.sample x)
  | .error e => .next (s.takeError e)

/-! ## PARSE_DEC (40_field_primitives.md R40, R41; the grammar is the spec's decision D5, log entry 12) -/

/-- A decimal digit, codes 0x30 to 0x39. -/
def isDigit (c : Code) : Bool := decide (0x30 ≤ c.toNat) && decide (c.toNat ≤ 0x39)

/-- The digit string of a numeral: what follows one optional `'-'`. -/
def digitsOf : Str → Str
  | []      => []
  | c :: cs => if c = chMinus then cs else c :: cs

/-- R40's `is_decimal`: the pattern `^-?[0-9]+$` on the whole string. -/
def isDecimal (s : Str) : Bool := !(digitsOf s).isEmpty && (digitsOf s).all isDigit

/-- The sum of R41 over a digit string: each digit times ten to the number of digits after it. -/
def digitsValue : Str → Nat
  | []      => 0
  | c :: cs => (c.toNat - 0x30) * 10 ^ cs.length + digitsValue cs

/-- R41: the value in the unbounded integers. -/
def decimalValue (s : Str) : Int :=
  if s.head? = some chMinus then -(digitsValue (digitsOf s) : Int) else (digitsValue (digitsOf s) : Int)

/-- PARSE_DEC with the label its failure carries (R42's first line; BAD_DECIMAL_SYNTAX as a FormatError is the
spec's decision D6, log entry 13). -/
def parseDec (field : Option FieldName) (s : Str) : Result Int :=
  if isDecimal s then .ok (decimalValue s) else fail .format field .badDecimalSyntax

/-! ## DEC2BIN (40_field_primitives.md R42, R43, R47) -/

/-- R47, the integer form: R42 from its `v < 0` test on. The comparisons are on unbounded integers (R44 d); nothing
is truncated, wrapped or sign-extended (R43). -/
def dec2binInt (field : Option FieldName) (v : Int) (w : Nat) : Result (BitVec w) :=
  if v < 0 then fail .range field .negative
  else if (2 : Int) ^ w ≤ v then fail .range field .tooWide
  else .ok (BitVec.ofInt w v)

/-- R42: syntax, then negative, then too wide. -/
def dec2bin (field : Option FieldName) (s : Str) (w : Nat) : Result (BitVec w) := do
  let v ← parseDec field s
  dec2binInt field v w

/-! ## BINVAL (40_field_primitives.md R45) -/

def isBit (c : Code) : Bool := decide (c = ch0) || decide (c = ch1)

/-- The vector with `b[w-1-k] = 1` exactly when `s<k> = '1'`: the first character is the most significant bit. -/
def bitsValue : Str → Nat
  | []      => 0
  | c :: cs => (if c = ch1 then 2 ^ cs.length else 0) + bitsValue cs

/-- R45: exactly `w` characters, each `'0'` or `'1'`; one error for either failure. -/
def binval (field : Option FieldName) (s : Str) (w : Nat) : Result (BitVec w) :=
  if s.length = w ∧ s.all isBit = true then .ok (BitVec.ofNat w (bitsValue s))
  else fail .format field .badBinaryPattern

/-! ## The six layouts (30_encoding.md R27 to R32), most significant contribution first (20_memory.md R21) -/

/-- R27. -/
def packR (funct7 : BitVec 7) (rs2 rs1 : BitVec 5) (funct3 : BitVec 3) (rd : BitVec 5) (opcode : BitVec 7) : Word :=
  funct7 ++ rs2 ++ rs1 ++ funct3 ++ rd ++ opcode

/-- R28: `imm` is not reordered. -/
def packI (imm : BitVec 12) (rs1 : BitVec 5) (funct3 : BitVec 3) (rd : BitVec 5) (opcode : BitVec 7) : Word :=
  imm ++ rs1 ++ funct3 ++ rd ++ opcode

/-- R29: high seven bits first, low five before the opcode. -/
def packS (imm : BitVec 12) (rs2 rs1 : BitVec 5) (funct3 : BitVec 3) (opcode : BitVec 7) : Word :=
  imm.extractLsb 11 5 ++ rs2 ++ rs1 ++ funct3 ++ imm.extractLsb 4 0 ++ opcode

/-- R30; `imm[0]` appears nowhere (R34; 90_conflicts.md C3, C4). -/
def packSB (imm : BitVec 13) (rs2 rs1 : BitVec 5) (funct3 : BitVec 3) (opcode : BitVec 7) : Word :=
  imm.extractLsb 12 12 ++ imm.extractLsb 10 5 ++ rs2 ++ rs1 ++ funct3
    ++ imm.extractLsb 4 1 ++ imm.extractLsb 11 11 ++ opcode

/-- R31: the raw upper-20-bit immediate. -/
def packU (imm : BitVec 20) (rd : BitVec 5) (opcode : BitVec 7) : Word :=
  imm ++ rd ++ opcode

/-- R32; `imm[0]` appears nowhere (R34). -/
def packUJ (imm : BitVec 21) (rd : BitVec 5) (opcode : BitVec 7) : Word :=
  imm.extractLsb 20 20 ++ imm.extractLsb 10 1 ++ imm.extractLsb 11 11 ++ imm.extractLsb 19 12 ++ rd ++ opcode

/-! ## Rendering (42_hex_renderer.md R60 to R64) -/

/-- `str(v)` (00_scope.md section 5.2): `w` characters, most significant bit first. -/
def bitString {w : Nat} (v : BitVec w) : Str :=
  (List.range w).map fun k => if v.getLsbD (w - 1 - k) then ch1 else ch0

/-- R60, BINSTR. -/
def binstr (w : Word) : Str := bitString w

/-- R64, the digit of a nibble value: `'0'` to `'9'`, then `'a'` to `'f'`. -/
def hexDigit (n : BitVec 4) : Code :=
  match n.toNat with
  | 0  => 0x30
  | 1  => 0x31
  | 2  => 0x32
  | 3  => 0x33
  | 4  => 0x34
  | 5  => 0x35
  | 6  => 0x36
  | 7  => 0x37
  | 8  => 0x38
  | 9  => 0x39
  | 10 => 0x61
  | 11 => 0x62
  | 12 => 0x63
  | 13 => 0x64
  | 14 => 0x65
  | _  => 0x66

/-- The nibble `word[31-4j : 28-4j]` (R61). -/
def nibble (w : Word) (j : Nat) : BitVec 4 := w.extractLsb' (28 - 4 * j) 4

/-- R61, HEX: `0x` and eight lowercase digits, most significant nibble first. -/
def hex (w : Word) : Str :=
  [ch0, chX, hexDigit (nibble w 0), hexDigit (nibble w 1), hexDigit (nibble w 2), hexDigit (nibble w 3),
    hexDigit (nibble w 4), hexDigit (nibble w 5), hexDigit (nibble w 6), hexDigit (nibble w 7)]

/-! ## RESOLVE's fold and comparison (43_dispatcher.md R67; 00_scope.md section 5.2) -/

/-- `lower`: 0x41 to 0x5A map to 0x61 to 0x7A, every other code to itself. -/
def lower (c : Code) : Code :=
  if 0x41 ≤ c.toNat ∧ c.toNat ≤ 0x5A then c + 0x20 else c

/-- R67: whole-string match after the fold, nothing trimmed (D13, D20, log entry 18). -/
def resolve (tag : Str) : Result Format :=
  let t := tag.map lower
  if t = [chR] then .ok .R
  else if t = [chI] then .ok .I
  else if t = [chS] then .ok .S
  else if t = [chS, chB] then .ok .SB
  else if t = [chU] then .ok .U
  else if t = [chU, chJ] then .ok .UJ
  else fail .unsupportedFormat none .unknownTag

end Sys2Proof.Machine
end

