-- ==== Sys2Proof/Machine/Operands.lean ====
section
/-! DEFINITION. The operand forms: DEC2BIN's two forms, the slots of a request per format, the presence check. -/

namespace Sys2Proof.Machine

/-- DEC2BIN on either form of its operand (40_field_primitives.md R42, R47). -/
def dec2binOperand (field : Option FieldName) (value : DecOperand) (w : Nat) : Result (BitVec w) :=
  match value with
  | .str s => dec2bin field s w
  | .int v => dec2binInt field v w

/-- How a slot is validated (30_encoding.md R25): "dec" by DEC2BIN or "bin" by BINVAL, at a width. -/
inductive SlotKind
  | dec (width : Nat)
  | bin (width : Nat)
deriving DecidableEq, Repr

/-- One cell of R25's slot table. -/
structure SlotSpec where
  field : FieldName
  kind  : SlotKind
deriving DecidableEq, Repr

/-- The slot table of 30_encoding.md R25, slot 0 first (the order of SB, U and UJ is the spec's decision D7,
log entry 14). -/
def slotTable : Format → List SlotSpec
  | .R  => [⟨.funct7, .bin 7⟩, ⟨.rs2, .dec 5⟩, ⟨.rs1, .dec 5⟩, ⟨.funct3, .bin 3⟩, ⟨.rd, .dec 5⟩, ⟨.opcode, .bin 7⟩]
  | .I  => [⟨.imm, .dec 12⟩, ⟨.rs1, .dec 5⟩, ⟨.funct3, .bin 3⟩, ⟨.rd, .dec 5⟩, ⟨.opcode, .bin 7⟩]
  | .S  => [⟨.imm, .dec 12⟩, ⟨.rs2, .dec 5⟩, ⟨.rs1, .dec 5⟩, ⟨.funct3, .bin 3⟩, ⟨.opcode, .bin 7⟩]
  | .SB => [⟨.imm, .dec 13⟩, ⟨.rs2, .dec 5⟩, ⟨.rs1, .dec 5⟩, ⟨.funct3, .bin 3⟩, ⟨.opcode, .bin 7⟩]
  | .U  => [⟨.imm, .dec 20⟩, ⟨.rd, .dec 5⟩, ⟨.opcode, .bin 7⟩]
  | .UJ => [⟨.imm, .dec 21⟩, ⟨.rd, .dec 5⟩, ⟨.opcode, .bin 7⟩]

/-- The number of slots a format reads: 6, 5, 5, 5, 3, 3 (R25, R66). -/
def arity (fmt : Format) : Nat := (slotTable fmt).length

/-- A request's slots in order (10_state.md R14). -/
def slotStrings (q : Request) : List Str := [q.slot0, q.slot1, q.slot2, q.slot3, q.slot4, q.slot5]

/-- Slot by slot, what the format expects and what the request carries; slots at or beyond the arity do not appear
(43_dispatcher.md R68; D8, log entry 15). -/
def readSlots (fmt : Format) (q : Request) : List (SlotSpec × Str) := (slotTable fmt).zip (slotStrings q)

/-- The lowest-numbered empty slot below the arity, by its field name (R68; only length zero is empty, D22). -/
def missingField (fmt : Format) (q : Request) : Option FieldName :=
  (readSlots fmt q).findSome? fun x => if x.2 = [] then some x.1.field else none

/-- R68, the presence check: after RESOLVE and before the assembler (D9, log entry 16). -/
def checkPresent (fmt : Format) (q : Request) : Result Unit :=
  match missingField fmt q with
  | some f => fail .missingField (some f) .emptyField
  | none   => .ok ()

end Sys2Proof.Machine
end

