-- ==== Sys2Proof/Machine/Flags.lean ====
section
/-! DEFINITION. The coded response ports of 10_state.md R15 as views of a response. The block has no flag that
persists (R9); these are recomputed from each response. The numeric codes are the spec's decision D10
(log entry 17). -/

namespace Sys2Proof.Machine

/-- `err_kind` codes (60_exceptions.md R70); 5, 6, 7 are never produced. -/
def ErrKind.code : ErrKind → BitVec 3
  | .range             => 1
  | .format            => 2
  | .unsupportedFormat => 3
  | .missingField      => 4

/-- `err_reason` codes (60_exceptions.md R70). -/
def ErrReason.code : ErrReason → BitVec 3
  | .negative         => 1
  | .tooWide          => 2
  | .badBinaryPattern => 3
  | .badDecimalSyntax => 4
  | .wordLength       => 5
  | .unknownTag       => 6
  | .emptyField       => 7

/-- The error on the response ports, if the operation failed. -/
def Response.error? : Response → Option EncodeError
  | .failed e      => some e
  | .encoded _ _ _ => none
  | .integer _     => none
  | .bits _ _      => none
  | .word _        => none
  | .text _        => none
  | .format _      => none

/-- Port `ok`: 1 on success, 0 on failure. -/
def Response.okPort (r : Response) : BitVec 1 :=
  match r.error? with
  | some _ => 0
  | none   => 1

/-- Port `err_kind`: 0 when `ok = 1`. -/
def Response.errKindPort (r : Response) : BitVec 3 :=
  match r.error? with
  | some e => e.kind.code
  | none   => 0

/-- Port `err_field`: 0 when `ok = 1` or when the error names no field. -/
def Response.errFieldPort (r : Response) : BitVec 3 :=
  match r.error? with
  | some e => fieldId e.field
  | none   => 0

/-- Port `err_reason`: 0 when `ok = 1`. -/
def Response.errReasonPort (r : Response) : BitVec 3 :=
  match r.error? with
  | some e => e.reason.code
  | none   => 0

/-- Port `word`, valid when `ok = 1`: absent on a failure (R15, 93 U2). -/
def Response.wordPort : Response → Option Word
  | .encoded w _ _ => some w
  | .word w        => some w
  | .failed _      => none
  | .integer _     => none
  | .bits _ _      => none
  | .text _        => none
  | .format _      => none

/-- Port `binary`, valid when an ENCODE succeeded: 32 characters. -/
def Response.binaryPort : Response → Option Str
  | .encoded _ b _ => some b
  | .failed _      => none
  | .integer _     => none
  | .bits _ _      => none
  | .word _        => none
  | .text _        => none
  | .format _      => none

/-- Port `hex`, valid when an ENCODE succeeded: 10 characters. -/
def Response.hexPort : Response → Option Str
  | .encoded _ _ h => some h
  | .failed _      => none
  | .integer _     => none
  | .bits _ _      => none
  | .word _        => none
  | .text _        => none
  | .format _      => none

end Sys2Proof.Machine
end

