-- ==== Sys2Proof/Machine/Primitives.lean ====
section
/-! DEFINITION. The meanings of the field primitives exposed on their own: PARSE_DEC, DEC2BIN, BINVAL
(40_field_primitives.md). -/

namespace Sys2Proof.Machine

/-- PARSE_DEC (R40, R41). On its own it carries no field label, so its failure names no field: DESIGN CHOICE
(log entry 8). -/
def execParseDec (str : Str) (s : State) : StepOutcome :=
  deliver (do return .integer (← parseDec none str)) s

/-- DEC2BIN (R42, R47). -/
def execDec2bin (label : Option FieldName) (value : DecOperand) (w : Nat) (s : State) : StepOutcome :=
  deliver (do return .bits w (← dec2binOperand label value w)) s

/-- BINVAL (R45). -/
def execBinval (label : Option FieldName) (str : Str) (w : Nat) (s : State) : StepOutcome :=
  deliver (do return .bits w (← binval label str w)) s

end Sys2Proof.Machine
end

