-- ==== Sys2Proof/Machine/Assemblers.lean ====
section
/-! DEFINITION. The six format assemblers (41_format_assemblers.md R50 to R57) and their meanings. Each validates
its slots in slot order and ends at the first failure, with that primitive's own failure (R50). The word is a 32-bit
vector, so R57's length check is discharged by its type. -/

namespace Sys2Proof.Machine

/-- ENC.R (R51). -/
def assembleR (funct7S rs2S rs1S funct3S rdS opcodeS : Str) : Result Word := do
  let funct7 ← binval (some .funct7) funct7S 7
  let rs2 ← dec2bin (some .rs2) rs2S 5
  let rs1 ← dec2bin (some .rs1) rs1S 5
  let funct3 ← binval (some .funct3) funct3S 3
  let rd ← dec2bin (some .rd) rdS 5
  let opcode ← binval (some .opcode) opcodeS 7
  return packR funct7 rs2 rs1 funct3 rd opcode

/-- ENC.I (R52). -/
def assembleI (immS rs1S funct3S rdS opcodeS : Str) : Result Word := do
  let imm ← dec2bin (some .imm) immS 12
  let rs1 ← dec2bin (some .rs1) rs1S 5
  let funct3 ← binval (some .funct3) funct3S 3
  let rd ← dec2bin (some .rd) rdS 5
  let opcode ← binval (some .opcode) opcodeS 7
  return packI imm rs1 funct3 rd opcode

/-- ENC.S (R53): `imm` is validated once, as a whole, before it is split. -/
def assembleS (immS rs2S rs1S funct3S opcodeS : Str) : Result Word := do
  let imm ← dec2bin (some .imm) immS 12
  let rs2 ← dec2bin (some .rs2) rs2S 5
  let rs1 ← dec2bin (some .rs1) rs1S 5
  let funct3 ← binval (some .funct3) funct3S 3
  let opcode ← binval (some .opcode) opcodeS 7
  return packS imm rs2 rs1 funct3 opcode

/-- ENC.SB (R54): the range check is at width 13 (90_conflicts.md C5); an odd `imm` is no error (R34). -/
def assembleSB (immS rs2S rs1S funct3S opcodeS : Str) : Result Word := do
  let imm ← dec2bin (some .imm) immS 13
  let rs2 ← dec2bin (some .rs2) rs2S 5
  let rs1 ← dec2bin (some .rs1) rs1S 5
  let funct3 ← binval (some .funct3) funct3S 3
  let opcode ← binval (some .opcode) opcodeS 7
  return packSB imm rs2 rs1 funct3 opcode

/-- ENC.U (R55). -/
def assembleU (immS rdS opcodeS : Str) : Result Word := do
  let imm ← dec2bin (some .imm) immS 20
  let rd ← dec2bin (some .rd) rdS 5
  let opcode ← binval (some .opcode) opcodeS 7
  return packU imm rd opcode

/-- ENC.UJ (R56): the range check is at width 21 (D14); an odd `imm` is no error (R34). -/
def assembleUJ (immS rdS opcodeS : Str) : Result Word := do
  let imm ← dec2bin (some .imm) immS 21
  let rd ← dec2bin (some .rd) rdS 5
  let opcode ← binval (some .opcode) opcodeS 7
  return packUJ imm rd opcode

/-- ENC.R (R51). -/
def execEncR (funct7 rs2 rs1 funct3 rd opcode : Str) (s : State) : StepOutcome :=
  deliver (do return .word (← assembleR funct7 rs2 rs1 funct3 rd opcode)) s

/-- ENC.I (R52). -/
def execEncI (imm rs1 funct3 rd opcode : Str) (s : State) : StepOutcome :=
  deliver (do return .word (← assembleI imm rs1 funct3 rd opcode)) s

/-- ENC.S (R53). -/
def execEncS (imm rs2 rs1 funct3 opcode : Str) (s : State) : StepOutcome :=
  deliver (do return .word (← assembleS imm rs2 rs1 funct3 opcode)) s

/-- ENC.SB (R54). -/
def execEncSB (imm rs2 rs1 funct3 opcode : Str) (s : State) : StepOutcome :=
  deliver (do return .word (← assembleSB imm rs2 rs1 funct3 opcode)) s

/-- ENC.U (R55). -/
def execEncU (imm rd opcode : Str) (s : State) : StepOutcome :=
  deliver (do return .word (← assembleU imm rd opcode)) s

/-- ENC.UJ (R56). -/
def execEncUJ (imm rd opcode : Str) (s : State) : StepOutcome :=
  deliver (do return .word (← assembleUJ imm rd opcode)) s

end Sys2Proof.Machine
end

