-- ==== Sys2Proof/Machine/Render.lean ====
section
/-! DEFINITION. The meanings of the renderers BINSTR, HEX and HEXS (42_hex_renderer.md). -/

namespace Sys2Proof.Machine

/-- BINSTR (R60). -/
def execBinstr (word : Word) (s : State) : StepOutcome :=
  deliver (.ok (.text (binstr word))) s

/-- HEX (R61, R64). -/
def execHex (word : Word) (s : State) : StepOutcome :=
  deliver (.ok (.text (hex word))) s

/-- HEXS (R62): a length other than 32 is FormatError(none, WORD_LENGTH); 32 characters of `'0'` and `'1'` render as
their vector does; on any other content of that length the model refuses (D16, 93 U3, log entry 9). -/
def execHexs (str : Str) (s : State) : StepOutcome :=
  if str.length = Config.wordChars then
    if str.all isBit = true then deliver (.ok (.text (hex (BitVec.ofNat 32 (bitsValue str))))) s
    else .refused .hexsContent
  else deliver (fail .format none .wordLength) s

end Sys2Proof.Machine
end

