-- ==== Sys2Proof/Machine/Encoder.lean ====
section
/-! DEFINITION. DISPATCH: the meanings of RESOLVE and of ENCODE, the block's one entry point (43_dispatcher.md). -/

namespace Sys2Proof.Machine

/-- The assembler of a format on its slots (R66's `case fmt of`). -/
def assemble (fmt : Format) (q : Request) : Result Word :=
  match fmt with
  | .R  => assembleR q.slot0 q.slot1 q.slot2 q.slot3 q.slot4 q.slot5
  | .I  => assembleI q.slot0 q.slot1 q.slot2 q.slot3 q.slot4
  | .S  => assembleS q.slot0 q.slot1 q.slot2 q.slot3 q.slot4
  | .SB => assembleSB q.slot0 q.slot1 q.slot2 q.slot3 q.slot4
  | .U  => assembleU q.slot0 q.slot1 q.slot2
  | .UJ => assembleUJ q.slot0 q.slot1 q.slot2

/-- ENCODE (R66): resolve the tag, check that every slot below the arity is present (R68), assemble, render. -/
def encodeRequest (q : Request) : Result Response := do
  let fmt ← resolve q.tag
  checkPresent fmt q
  let word ← assemble fmt q
  return .encoded word (binstr word) (hex word)

/-- THE RESPONSE PORTS (10_state.md R15) "are at every instant the function ENCODE of the request ports"
(70_reset_and_hazards.md R86, 10_state.md R19): whatever was read before, whichever block the bench drives. -/
def State.response (s : State) : Response := (encodeRequest s.request.request).response

/-- RESOLVE (R67). -/
def execResolve (tag : Str) (s : State) : StepOutcome :=
  deliver (do return .format (← resolve tag)) s

/-- ENCODE (R66). -/
def execEncode (request : Request) (s : State) : StepOutcome :=
  deliver (encodeRequest request) s

end Sys2Proof.Machine
end

