-- ==== Sys2Proof/Machine/Dispatch.lean ====
section
/-! DEFINITION. One arm per operation. -/

namespace Sys2Proof.Machine

-- The table's order: the six assemblers, the primitives, the renderers, RESOLVE, ENCODE.
def exec (i : Instr) (s : State) : Host.Outcome State Fault Refusal :=
  match i with
  | .encR funct7 rs2 rs1 funct3 rd opcode => Sys2Proof.Machine.execEncR funct7 rs2 rs1 funct3 rd opcode s
  | .encI imm rs1 funct3 rd opcode => Sys2Proof.Machine.execEncI imm rs1 funct3 rd opcode s
  | .encS imm rs2 rs1 funct3 opcode => Sys2Proof.Machine.execEncS imm rs2 rs1 funct3 opcode s
  | .encSB imm rs2 rs1 funct3 opcode => Sys2Proof.Machine.execEncSB imm rs2 rs1 funct3 opcode s
  | .encU imm rd opcode => Sys2Proof.Machine.execEncU imm rd opcode s
  | .encUJ imm rd opcode => Sys2Proof.Machine.execEncUJ imm rd opcode s
  | .parseDec str => Sys2Proof.Machine.execParseDec str s
  | .dec2bin label value w => Sys2Proof.Machine.execDec2bin label value w s
  | .binval label str w => Sys2Proof.Machine.execBinval label str w s
  | .binstr word => Sys2Proof.Machine.execBinstr word s
  | .hex word => Sys2Proof.Machine.execHex word s
  | .hexs str => Sys2Proof.Machine.execHexs str s
  | .resolve tag => Sys2Proof.Machine.execResolve tag s
  | .encode request => Sys2Proof.Machine.execEncode request s

end Sys2Proof.Machine
end

