-- ==== Sys2Proof/Machine/Step.lean ====
section
/-! DEFINITION. One step: read the response to the presented operation once (log entry 1). -/

namespace Sys2Proof.Machine

/-- The block is combinational (70_reset_and_hazards.md R86): one step is the caller's reading of the response to the
operation that the ports present. There is no pc to advance and nothing else to change. With the composed ENCODER
driven the operation is ENCODE on the request that the request ports carry (R66). -/
def step (s : State) : Host.Outcome State Fault Refusal := exec (decode s.ports) s

/-- The caller drives the ports. -/
def State.drive (s : State) (p : Ports) : State := { s with request := p.request, bench := p.bench }

/-- The caller presents an operation (between steps; R89: the request is then held while its response is read). -/
def State.present (s : State) (i : Instr) : State := s.drive (encode i)

/-- The caller drives the request ports of the composed ENCODER (10_state.md R14). -/
def State.driveRequest (s : State) (p : RequestPorts) : State :=
  s.drive { bench := .composed, request := p }

/-- Present the operation whose byte frame is the number `w` (log entries 3 and 6): the block fetches nothing, so
this is the caller driving the ports. A number whose frame names no operation presents nothing. -/
def State.withFetchWord (s : State) (nbits w : Nat) : State :=
  match decodeTableWord nbits w with
  | some i => s.present i
  | none   => s

end Sys2Proof.Machine
end

