-- ==== Sys2Proof/Machine/Session.lean ====
section
/-! DEFINITION. A caller's session: requests presented one after another on the same ENCODER (20_memory.md R24). -/

namespace Sys2Proof.Machine

/-- Present each request in turn, step once, read the response. `none` if a step gives no next state (which 43_dispatcher.md
R69 excludes). -/
def session : State → List RequestPorts → Option (List Response)
  | _, []      => some []
  | s, p :: ps =>
    match step (s.driveRequest p) with
    | .next t    => (session t ps).map (t.sampled :: ·)
    | .fault _   => none
    | .refused _ => none

end Sys2Proof.Machine
end

