-- ==== Sys2Proof/Safety.lean ====
section
/-! DEFINITION. What claims about the machine are stated in. -/

namespace Sys2Proof.Machine

/-- What was read is the response to the presented operation: reading again changes nothing. -/
def State.settled (s : State) : Prop := step s = .next s

/-- The error triples the composed ENCODER can produce: the table of 60_exceptions.md R70. -/
def EncodeError.listed (e : EncodeError) : Bool :=
  match e.kind, e.field, e.reason with
  | .unsupportedFormat, none, .unknownTag       => true
  | .missingField, some _, .emptyField          => true
  | .range, some f, .negative                   => f.isDecimal
  | .range, some f, .tooWide                    => f.isDecimal
  | .format, some f, .badBinaryPattern          => f.isBinary
  | .format, some f, .badDecimalSyntax          => f.isDecimal
  | _, _, _                                     => false

/-- The triples any of the fourteen operations can produce: R70's table, with no field named where a sub-block on
its own was given no label (log entry 2), and FormatError(none, WORD_LENGTH) of HEXS (R62). -/
def EncodeError.legal (e : EncodeError) : Bool :=
  match e.kind, e.field, e.reason with
  | .unsupportedFormat, none, .unknownTag => true
  | .missingField, some _, .emptyField    => true
  | .range, f, .negative                  => decimalLabel f
  | .range, f, .tooWide                   => decimalLabel f
  | .format, f, .badBinaryPattern         => binaryLabel f
  | .format, f, .badDecimalSyntax         => decimalLabel f
  | .format, none, .wordLength            => true
  | _, _, _                               => false

/-- A response that hangs together: a success's `binary` and `hex` are the renderings of its word (10_state.md R12,
R13), a failure's triple is one that an operation can produce. -/
def Response.coherent : Response → Bool
  | .encoded w b h => decide (b = binstr w) && decide (h = hex w)
  | .failed e      => e.legal
  | .integer _     => true
  | .bits _ _      => true
  | .word _        => true
  | .text _        => true
  | .format _      => true

/-- The model's invariant. -/
def State.inv (s : State) : Bool := s.sampled.coherent

/-! ## What a slot string says -/

/-- `s` is a decimal numeral of value `v` (40_field_primitives.md R40, R41). -/
def Denotes (s : Str) (v : Int) : Prop := isDecimal s = true ∧ decimalValue s = v

/-- `s` is exactly `w` characters, each `'0'` or `'1'` (40_field_primitives.md R45). -/
def IsBinary (s : Str) (w : Nat) : Prop := s.length = w ∧ ∀ c ∈ s, c = 0x30 ∨ c = 0x31

/-- What is wrong with a slot string, by the cell of R25's table it stands in: 40_field_primitives.md R42 and R45 read
as conditions on the string, in the order of 60_exceptions.md R75 item 3. -/
def slotFault (spec : SlotSpec) (s : Str) : Option EncodeError :=
  match spec.kind with
  | .dec w =>
    if isDecimal s = false then some { kind := .format, field := some spec.field, reason := .badDecimalSyntax }
    else if decimalValue s < 0 then some { kind := .range, field := some spec.field, reason := .negative }
    else if (2 : Int) ^ w ≤ decimalValue s then some { kind := .range, field := some spec.field, reason := .tooWide }
    else none
  | .bin w =>
    if s.length = w ∧ (s.all fun c => decide (c = 0x30) || decide (c = 0x31)) = true then none
    else some { kind := .format, field := some spec.field, reason := .badBinaryPattern }

/-- The first fault of a request's slots in slot order, below the arity (R75 item 3). -/
def firstFault (fmt : Format) (q : Request) : Option EncodeError :=
  (readSlots fmt q).findSome? fun x => slotFault x.1 x.2

/-- The assembler of a format as an operation on its own, on the slots of a request. -/
def assemblerOf (fmt : Format) (q : Request) : Instr :=
  match fmt with
  | .R  => .encR q.slot0 q.slot1 q.slot2 q.slot3 q.slot4 q.slot5
  | .I  => .encI q.slot0 q.slot1 q.slot2 q.slot3 q.slot4
  | .S  => .encS q.slot0 q.slot1 q.slot2 q.slot3 q.slot4
  | .SB => .encSB q.slot0 q.slot1 q.slot2 q.slot3 q.slot4
  | .U  => .encU q.slot0 q.slot1 q.slot2
  | .UJ => .encUJ q.slot0 q.slot1 q.slot2

/-- The sixteen accepted tag strings and their formats (30_encoding.md R26), in ASCII. -/
def acceptedTags : List (Str × Format) :=
  [([0x52], .R), ([0x72], .R), ([0x49], .I), ([0x69], .I), ([0x53], .S), ([0x73], .S),
    ([0x53, 0x42], .SB), ([0x53, 0x62], .SB), ([0x73, 0x42], .SB), ([0x73, 0x62], .SB),
    ([0x55], .U), ([0x75], .U), ([0x55, 0x4A], .UJ), ([0x55, 0x6A], .UJ), ([0x75, 0x4A], .UJ), ([0x75, 0x6A], .UJ)]

/-- Two strings on one slot that stand for the same field, as far as the word can tell (30_encoding.md R35 a): the same
characters in a binary slot, the same value in a decimal slot, the same value but for bit 0 in the `imm` slot of SB
and UJ (R34). -/
def sameField (fmt : Format) (spec : SlotSpec) (s t : Str) : Prop :=
  match spec.kind with
  | .bin _ => s = t
  | .dec _ =>
    if spec.field = .imm ∧ (fmt = .SB ∨ fmt = .UJ) then decimalValue s / 2 = decimalValue t / 2
    else decimalValue s = decimalValue t

end Sys2Proof.Machine
end

