-- ==== Sys2Proof/Certificates/Slice0/Obligations.lean ====
section
/-! DEFINITION. The statements about the model, one definition each; each docstring names the rule of spec/ it
formalises or rests on. Most rules of this spec carry a decision of the spec's own (92_eei_decisions.md) or are marked
"derived" there; a statement that rests on one says so and names the log entry. -/

open Sys2Proof Sys2Proof.Machine

/-! ## The machine: decoding, stepping, invariants -/

/-- A step runs the operation that the ports present; there always is one. With the composed ENCODER driven it is ENCODE
on the request ports (R66). The unit selector is the model's own (log entries 1, 2). -/
def Obligations.StepRunsThePresentedOperation : Prop :=
  ∀ s : State,
    step s = exec (decode s.ports) s ∧
    (s.bench.unit = .composed → step s = exec (.encode s.request.request) s)

/-- Presenting a well-formed operation and stepping runs exactly it, whether it is presented as such or as a number whose
byte frame names it (log entries 2, 3, 6). -/
def Obligations.PresentedOperationsRun : Prop :=
  ∀ (i : Instr) (s : State),
    (i.wf = true → step (s.present i) = exec i (s.present i)) ∧
    (∀ nbits w : Nat, decodeTableWord nbits w = some i →
      step (s.withFetchWord nbits w) = exec i (s.withFetchWord nbits w))

/-- Decode and encode agree on the ports, for every well-formed operation with every operand (log entry 2). -/
def Obligations.DecodeOfEncodeIsTheOperation : Prop :=
  ∀ i : Instr, i.wf = true → decode (encode i) = i

/-- Decode and encode agree on byte frames, for every well-formed operation with every operand, strings of any length
among them; the frame of an ill-formed one is rejected by name (log entries 3, 10). -/
def Obligations.DecodeBytesOfEncodeBytesIsTheOperation : Prop :=
  ∀ i : Instr,
    (i.wf = true → decodeBytes (encodeBytes i) = .ok i) ∧
    (i.wf = false → ∃ why, decodeBytes (encodeBytes i) = .error why)

/-- What the ports present, and what the decoder reads from any bytes, is well-formed: DEC2BIN and BINVAL never carry a
label of the wrong representation (R10, R46), and DEC2BIN's width is never 0 (R42; log entry 10). -/
def Obligations.DecodedOperationsAreWellFormed : Prop :=
  (∀ p : Ports, (decode p).wf = true) ∧
  ∀ (bs : List Byte) (i : Instr), decodeBytes bs = .ok i → i.wf = true

/-- Sample frames, in the ASCII codes of R17: the request `I | "5", "10", "000", "3", "0010011"` (95_test_vectors.md
S7), DEC2BIN of "31" at width 5 labelled rs1 (S3), and HEX of 0x00550193. The frame is the model's own
(log entry 3). -/
def Obligations.SampleFramesDecode : Prop :=
  decodeBytes [0, 0, 0, 0, 0, 0, 0, 0, 0, 1, 0x49, 1, 0x35, 2, 0x31, 0x30, 3, 0x30, 0x30, 0x30, 1, 0x33,
      7, 0x30, 0x30, 0x31, 0x30, 0x30, 0x31, 0x31]
    = .ok (.encode ⟨[0x49], [0x35], [0x31, 0x30], [0x30, 0x30, 0x30], [0x33],
        [0x30, 0x30, 0x31, 0x30, 0x30, 0x31, 0x31], []⟩) ∧
  decodeBytes [8, 5, 5, 0, 0, 0, 0, 0, 0, 0, 2, 0x33, 0x31] = .ok (.dec2bin (some .rs1) (.str [0x33, 0x31]) 5) ∧
  decodeBytes [11, 0, 0, 0, 0, 0x00, 0x55, 0x01, 0x93] = .ok (.hex 0x00550193)

/-- R8, R14: the response is a function of the request's strings alone. Whatever the state before, whatever the ignored
characters and capacities of the ports, the same request gets the same response, and a step changes nothing else. -/
def Obligations.EqualRequestsGetEqualResponses : Prop :=
  ∀ q : Request, ∃ r : Response, ∀ (p : RequestPorts) (s : State),
    p.request = q → step (s.driveRequest p) = .next ((s.driveRequest p).sample r)

/-- R7 (decision D4, log entry 4): ports of any capacities that hold a request's strings can present it. -/
def Obligations.EveryRequestFitsPortsOfEnoughCapacity : Prop :=
  ∀ (tagMaxLen fieldMaxLen : Nat) (q : Request),
    q.tag.length ≤ tagMaxLen → (∀ f ∈ slotStrings q, f.length ≤ fieldMaxLen) →
    ∃ p : RequestPorts, p.hasCapacity tagMaxLen fieldMaxLen = true ∧ p.request = q

/-- R24 (a), (b): in a session of any requests on one ENCODER, each gets the response it would get alone, on any
ENCODER. One machine in sequence (log entry 1). (R24 (c) says only that no fence, atomic or cache operation exists.) -/
def Obligations.SessionsAnswerEachRequestAlone : Prop :=
  ∃ answer : RequestPorts → Response,
    (∀ (s : State) (p : RequestPorts), session s [p] = some [answer p]) ∧
    (∀ (s : State) (ps : List RequestPorts), session s ps = some (ps.map answer))

/-- R19, R86 (decision D1, log entries 1, 5): at every instant, in every state, the response ports are ENCODE's response
to the request that the request ports carry: states that carry one request carry one response, it is the one a step of
the composed ENCODER reads, and it is a success with the renderings of its word or a failure with a legal triple. Driving
other ports changes it at once; a step changes it never. -/
def Obligations.ResponsePortsFollowTheRequestPorts : Prop :=
  ∀ s : State,
    exec (.encode s.request.request) s = .next (s.sample s.response) ∧
    (s.bench.unit = .composed → step s = .next (s.sample s.response)) ∧
    (∀ s' : State, s'.request.request = s.request.request → s'.response = s.response) ∧
    (∀ t : State, step s = .next t → t.response = s.response) ∧
    (∀ (p : RequestPorts) (t : State), step (s.driveRequest p) = .next t →
      (s.driveRequest p).response = t.sampled) ∧
    ((∃ w : Word, s.response = .encoded w (binstr w) (hex w)) ∨
      ∃ e : EncodeError, e.legal = true ∧ s.response = .failed e)

/-- R86 (decision D1, log entry 1): after any step what was read is the response to what is presented, so reading again
changes nothing. -/
def Obligations.EveryStepSettlesTheResponse : Prop :=
  ∀ s t : State, step s = .next t → t.settled

/-- R19, R86: at reset the response ports carry the response to what the request ports carry, and so does the record of
what was read. What the ports carry at reset is the model's choice (log entry 5). -/
def Obligations.ResetIsSettled : Prop :=
  State.reset.settled ∧ State.reset.sampled = State.reset.response ∧
    State.reset.response.okPort = 0 ∧ State.reset.response.errKindPort = 3 ∧
    State.reset.response.errFieldPort = 0 ∧ State.reset.response.errReasonPort = 6

/-- The invariant on what was read: a success's renderings are those of its word (R12, R13), a failure's triple is one an operation can
produce (R70; log entries 2, 8). Every step keeps it, from every state. -/
def Obligations.EveryStepKeepsTheInvariant : Prop :=
  ∀ s t : State, s.inv = true → step s = .next t → t.inv = true

/-- The invariant holds at reset. -/
def Obligations.ResetMeetsTheInvariant : Prop :=
  State.reset.inv = true

/-- The frame of all fourteen operations (R8, R9, R76, R89): the request ports and the bench ports are unchanged, and so
are the response ports, which follow the request ports; what was read is all that changes. There is no register, flag,
pc or memory to change. -/
def Obligations.OperationsChangeOnlyTheResponse : Prop :=
  ∀ (i : Instr) (s t : State), exec i s = .next t →
    t.request = s.request ∧ t.bench = s.bench ∧ t.response = s.response ∧ t = s.sample t.sampled

/-! ## Field primitives -/

/-- R40 (grammar: decision D5, log entry 12): PARSE_DEC answers an integer exactly on the strings `^-?[0-9]+$`. On
every other string its error names no field (log entries 8, 13). -/
def Obligations.ParseDecAcceptsExactlyTheNumerals : Prop :=
  ∀ (str : Str) (s : State),
    ((∃ ds : Str, (str = ds ∨ str = 0x2D :: ds) ∧ ds ≠ [] ∧ ∀ c ∈ ds, 0x30 ≤ c.toNat ∧ c.toNat ≤ 0x39) →
      ∃ v, exec (.parseDec str) s = .next (s.sample (.integer v))) ∧
    ((¬ ∃ ds : Str, (str = ds ∨ str = 0x2D :: ds) ∧ ds ≠ [] ∧ ∀ c ∈ ds, 0x30 ≤ c.toNat ∧ c.toNat ≤ 0x39) →
      exec (.parseDec str) s = .next (s.sample (.failed ⟨.format, none, .badDecimalSyntax⟩)))

/-- R41 (decision D5, log entry 12): PARSE_DEC's value is the sum of the digits times their powers of ten, negated
after a minus sign. -/
def Obligations.ParseDecValueIsThePositionalSum : Prop :=
  ∀ (ds : Str) (s : State), ds ≠ [] → (∀ c ∈ ds, 0x30 ≤ c.toNat ∧ c.toNat ≤ 0x39) →
    exec (.parseDec ds) s = .next (s.sample (.integer
      (∑ k : Fin ds.length, (ds[k].toNat - 0x30) * 10 ^ (ds.length - 1 - k) : Nat))) ∧
    exec (.parseDec (0x2D :: ds)) s = .next (s.sample (.integer
      (-(∑ k : Fin ds.length, (ds[k].toNat - 0x30) * 10 ^ (ds.length - 1 - k) : Nat))))

/-- R42 on a string, in its order of detection; a string that is no numeral fails by the spec's decision D6
(log entry 13). R42's widths are positive; at 0, which nothing presents, the pseudocode runs too (log entry 10). -/
def Obligations.Dec2binOnAString : Prop :=
  ∀ (label : Option FieldName) (str : Str) (w : Nat) (s : State),
    (isDecimal str = false →
      exec (.dec2bin label (.str str) w) s = .next (s.sample (.failed ⟨.format, label, .badDecimalSyntax⟩))) ∧
    ∀ v : Int, Denotes str v →
      (v < 0 → exec (.dec2bin label (.str str) w) s = .next (s.sample (.failed ⟨.range, label, .negative⟩))) ∧
      (2 ^ w ≤ v → exec (.dec2bin label (.str str) w) s = .next (s.sample (.failed ⟨.range, label, .tooWide⟩))) ∧
      (0 ≤ v → v < 2 ^ w → ∃ b : BitVec w, (b.toNat : Int) = v ∧
        exec (.dec2bin label (.str str) w) s = .next (s.sample (.bits w b)))

/-- R47: DEC2BIN on an integer starts at the `v < 0` test, and the two forms agree on every numeral.
(A width of 0 is never presented, log entry 10.) -/
def Obligations.Dec2binIntegerFormAgrees : Prop :=
  ∀ (label : Option FieldName) (v : Int) (w : Nat) (s : State),
    (v < 0 → exec (.dec2bin label (.int v) w) s = .next (s.sample (.failed ⟨.range, label, .negative⟩))) ∧
    (2 ^ w ≤ v → exec (.dec2bin label (.int v) w) s = .next (s.sample (.failed ⟨.range, label, .tooWide⟩))) ∧
    (0 ≤ v → v < 2 ^ w → ∃ b : BitVec w, (b.toNat : Int) = v ∧
      exec (.dec2bin label (.int v) w) s = .next (s.sample (.bits w b))) ∧
    ∀ str : Str, exec (.parseDec str) s = .next (s.sample (.integer v)) →
      exec (.dec2bin label (.str str) w) s = exec (.dec2bin label (.int v) w) s

/-- R44 (a) to (c) (marked derived there): DEC2BIN succeeds exactly on the values in range, as an integer and as any numeral
of one; it reaches every vector from some numeral and keeps the value exactly, so that equal vectors come from equal
values; and its rendering passes BINVAL at that width with the same vector. R44 is for widths from 1 on. At width 0, which
is the model's reading (log entry 10), the two primitives run the same pseudocode, and BINVAL accepts the empty string. -/
def Obligations.Dec2binKeepsTheValue : Prop :=
  ∀ (label : Option FieldName) (w : Nat) (s : State),
    (∀ v : Int,
      ((∃ b : BitVec w, exec (.dec2bin label (.int v) w) s = .next (s.sample (.bits w b))) ↔ 0 ≤ v ∧ v < 2 ^ w) ∧
      ∀ str : Str, Denotes str v →
        ((∃ b : BitVec w, exec (.dec2bin label (.str str) w) s = .next (s.sample (.bits w b))) ↔
          0 ≤ v ∧ v < 2 ^ w)) ∧
    ∀ b : BitVec w,
      (∃ str : Str, exec (.dec2bin label (.str str) w) s = .next (s.sample (.bits w b))) ∧
      (∀ str : Str, exec (.dec2bin label (.str str) w) s = .next (s.sample (.bits w b)) →
        Denotes str b.toNat) ∧
      (∀ v : Int, exec (.dec2bin label (.int v) w) s = .next (s.sample (.bits w b)) → v = b.toNat) ∧
      (∀ label' : Option FieldName,
        exec (.binval label' (bitString b) w) s = .next (s.sample (.bits w b)))

/-- R43, R33 (the two's-complement recipe is marked derived there): a negative value always fails, in either form, and the
pattern of `-n` is what the numeral of `2^w - n` gives. (A width of 0 is never presented, log entry 10.) -/
def Obligations.NegativeValuesAreSuppliedAsPatterns : Prop :=
  ∀ (label : Option FieldName) (w : Nat) (str : Str) (s : State),
    (∀ v : Int, v < 0 →
      exec (.dec2bin label (.int v) w) s = .next (s.sample (.failed ⟨.range, label, .negative⟩)) ∧
      (Denotes str v →
        exec (.dec2bin label (.str str) w) s = .next (s.sample (.failed ⟨.range, label, .negative⟩)))) ∧
    (∀ n : Nat, 0 < w → 1 ≤ n → n ≤ 2 ^ (w - 1) → Denotes str ((2 : Int) ^ w - n) →
      ∃ b : BitVec w, b.toInt = -n ∧ exec (.dec2bin label (.str str) w) s = .next (s.sample (.bits w b)))

/-- R45 (exact matching: decision D21, log entry 20; width 0 is the model's reading, log entry 10): BINVAL accepts exactly
`w` characters of '0' and '1', first character most significant, and its contribution is the string itself; every other
string fails with the one FormatError. (The character codes are those of R17, log entry 11. At width 0 the model accepts
the empty string, by R45's pseudocode and against its corner case taken literally.) -/
def Obligations.BinvalAcceptsExactlyTheWidth : Prop :=
  ∀ (label : Option FieldName) (str : Str) (w : Nat) (s : State),
    (IsBinary str w → ∃ b : BitVec w, exec (.binval label str w) s = .next (s.sample (.bits w b)) ∧
      bitString b = str ∧ ∀ k, k < w → (b.getLsbD (w - 1 - k) = true ↔ str[k]? = some 0x31)) ∧
    (¬ IsBinary str w →
      exec (.binval label str w) s = .next (s.sample (.failed ⟨.format, label, .badBinaryPattern⟩)))

/-! ## Rendering -/

/-- R60: BINSTR gives 32 characters, bit 31 first (character codes of R17, log entry 11), and BINVAL at width 32 reads
them back (marked derived there). -/
def Obligations.BinstrRendersBitThirtyOneFirst : Prop :=
  ∀ (word : Word) (s : State), ∃ t : Str,
    exec (.binstr word) s = .next (s.sample (.text t)) ∧ t.length = 32 ∧
    (∀ k, k < 32 → t[k]? = some (if word.getLsbD (31 - k) then 0x31 else 0x30)) ∧
    exec (.binval none t 32) s = .next (s.sample (.bits 32 word))

/-- R61, R22, with the digit table of R64 (from general knowledge there, log entry 11): HEX gives ten characters, `0x`
and then the digits of the nibbles, most significant first, in lower case. -/
def Obligations.HexRendersNibblesMostSignificantFirst : Prop :=
  ∀ (word : Word) (s : State), ∃ t : Str,
    exec (.hex word) s = .next (s.sample (.text t)) ∧ t.length = 10 ∧
    t[0]? = some 0x30 ∧ t[1]? = some 0x78 ∧
    ∀ j, j < 8 → t[2 + j]? = some (
      if word.toNat / 16 ^ (7 - j) % 16 < 10 then BitVec.ofNat 8 (0x30 + word.toNat / 16 ^ (7 - j) % 16)
      else BitVec.ofNat 8 (0x61 + (word.toNat / 16 ^ (7 - j) % 16 - 10)))

/-- R63: reading the eight digits as a base-sixteen numeral gives the word's value and, in 32 bits, the word; two
different words never share a Hex Word. (The digit codes are those of R17, log entry 11.) -/
def Obligations.HexReadsBackToTheWord : Prop :=
  ∀ (word : Word) (s : State), ∃ t : Str,
    exec (.hex word) s = .next (s.sample (.text t)) ∧
    word.toNat = ∑ j ∈ Finset.range 8,
      (if (t.getD (2 + j) 0).toNat ≤ 0x39 then (t.getD (2 + j) 0).toNat - 0x30
        else (t.getD (2 + j) 0).toNat - 0x61 + 10) * 16 ^ (7 - j) ∧
    BitVec.ofNat 32 (∑ j ∈ Finset.range 8,
      (if (t.getD (2 + j) 0).toNat ≤ 0x39 then (t.getD (2 + j) 0).toNat - 0x30
        else (t.getD (2 + j) 0).toNat - 0x61 + 10) * 16 ^ (7 - j)) = word ∧
    ∀ word' : Word, exec (.hex word') s = .next (s.sample (.text t)) → word' = word

/-- R62 (decisions D15, D16; log entry 9): HEXS fails on a length other than 32, renders 32 binary characters as HEX
renders their vector, and is refused by name on any other content. -/
def Obligations.HexsChecksLengthAndRendersBinaryContent : Prop :=
  ∀ (str : Str) (s : State),
    (str.length ≠ 32 → exec (.hexs str) s = .next (s.sample (.failed ⟨.format, none, .wordLength⟩))) ∧
    (IsBinary str 32 → ∃ (word : Word) (t : Str),
      (∀ k, k < 32 → (word.getLsbD (31 - k) = true ↔ str[k]? = some 0x31)) ∧
      exec (.hexs str) s = .next (s.sample (.text t)) ∧ exec (.hex word) s = .next (s.sample (.text t))) ∧
    (str.length = 32 → ¬ IsBinary str 32 → exec (.hexs str) s = .refused .hexsContent)

/-! ## The six assemblers: on valid slots they complete, and every field lands where its layout says -/

/-- R27: layout R, by word bits and by `binary` characters. -/
def Obligations.EncRPlacesEveryField : Prop :=
  ∀ (funct7 : BitVec 7) (rs2 rs1 : BitVec 5) (funct3 : BitVec 3) (rd : BitVec 5) (opcode : BitVec 7)
    (rs2S rs1S rdS : Str) (s : State),
    Denotes rs2S rs2.toNat → Denotes rs1S rs1.toNat → Denotes rdS rd.toNat →
    ∃ w : Word,
      exec (.encR (bitString funct7) rs2S rs1S (bitString funct3) rdS (bitString opcode)) s
        = .next (s.sample (.word w)) ∧
      w.extractLsb 31 25 = funct7 ∧ w.extractLsb 24 20 = rs2 ∧ w.extractLsb 19 15 = rs1 ∧
      w.extractLsb 14 12 = funct3 ∧ w.extractLsb 11 7 = rd ∧ w.extractLsb 6 0 = opcode ∧
      bitString w = bitString funct7 ++ bitString rs2 ++ bitString rs1 ++ bitString funct3 ++ bitString rd
        ++ bitString opcode

/-- R28: layout I. -/
def Obligations.EncIPlacesEveryField : Prop :=
  ∀ (imm : BitVec 12) (rs1 : BitVec 5) (funct3 : BitVec 3) (rd : BitVec 5) (opcode : BitVec 7)
    (immS rs1S rdS : Str) (s : State),
    Denotes immS imm.toNat → Denotes rs1S rs1.toNat → Denotes rdS rd.toNat →
    ∃ w : Word,
      exec (.encI immS rs1S (bitString funct3) rdS (bitString opcode)) s = .next (s.sample (.word w)) ∧
      w.extractLsb 31 20 = imm ∧ w.extractLsb 19 15 = rs1 ∧ w.extractLsb 14 12 = funct3 ∧
      w.extractLsb 11 7 = rd ∧ w.extractLsb 6 0 = opcode ∧
      bitString w = bitString imm ++ bitString rs1 ++ bitString funct3 ++ bitString rd ++ bitString opcode

/-- R29: layout S. -/
def Obligations.EncSPlacesEveryField : Prop :=
  ∀ (imm : BitVec 12) (rs2 rs1 : BitVec 5) (funct3 : BitVec 3) (opcode : BitVec 7)
    (immS rs2S rs1S : Str) (s : State),
    Denotes immS imm.toNat → Denotes rs2S rs2.toNat → Denotes rs1S rs1.toNat →
    ∃ w : Word,
      exec (.encS immS rs2S rs1S (bitString funct3) (bitString opcode)) s = .next (s.sample (.word w)) ∧
      w.extractLsb 31 25 = imm.extractLsb 11 5 ∧ w.extractLsb 24 20 = rs2 ∧ w.extractLsb 19 15 = rs1 ∧
      w.extractLsb 14 12 = funct3 ∧ w.extractLsb 11 7 = imm.extractLsb 4 0 ∧ w.extractLsb 6 0 = opcode ∧
      bitString w = bitString (imm.extractLsb 11 5) ++ bitString rs2 ++ bitString rs1 ++ bitString funct3
        ++ bitString (imm.extractLsb 4 0) ++ bitString opcode

/-- R30: layout SB; `imm[0]` appears nowhere. The slot order is the spec's decision D7 (log entry 14). -/
def Obligations.EncSBPlacesEveryField : Prop :=
  ∀ (imm : BitVec 13) (rs2 rs1 : BitVec 5) (funct3 : BitVec 3) (opcode : BitVec 7)
    (immS rs2S rs1S : Str) (s : State),
    Denotes immS imm.toNat → Denotes rs2S rs2.toNat → Denotes rs1S rs1.toNat →
    ∃ w : Word,
      exec (.encSB immS rs2S rs1S (bitString funct3) (bitString opcode)) s = .next (s.sample (.word w)) ∧
      w.extractLsb 31 31 = imm.extractLsb 12 12 ∧ w.extractLsb 30 25 = imm.extractLsb 10 5 ∧
      w.extractLsb 24 20 = rs2 ∧ w.extractLsb 19 15 = rs1 ∧ w.extractLsb 14 12 = funct3 ∧
      w.extractLsb 11 8 = imm.extractLsb 4 1 ∧ w.extractLsb 7 7 = imm.extractLsb 11 11 ∧
      w.extractLsb 6 0 = opcode ∧
      bitString w = bitString (imm.extractLsb 12 12) ++ bitString (imm.extractLsb 10 5) ++ bitString rs2
        ++ bitString rs1 ++ bitString funct3 ++ bitString (imm.extractLsb 4 1) ++ bitString (imm.extractLsb 11 11)
        ++ bitString opcode

/-- R31: layout U. The slot order is the spec's decision D7 (log entry 14). -/
def Obligations.EncUPlacesEveryField : Prop :=
  ∀ (imm : BitVec 20) (rd : BitVec 5) (opcode : BitVec 7) (immS rdS : Str) (s : State),
    Denotes immS imm.toNat → Denotes rdS rd.toNat →
    ∃ w : Word,
      exec (.encU immS rdS (bitString opcode)) s = .next (s.sample (.word w)) ∧
      w.extractLsb 31 12 = imm ∧ w.extractLsb 11 7 = rd ∧ w.extractLsb 6 0 = opcode ∧
      bitString w = bitString imm ++ bitString rd ++ bitString opcode

/-- R32: layout UJ; `imm[0]` appears nowhere. The slot order is the spec's decision D7 and the width of the range
check its decision D14 (log entry 14). -/
def Obligations.EncUJPlacesEveryField : Prop :=
  ∀ (imm : BitVec 21) (rd : BitVec 5) (opcode : BitVec 7) (immS rdS : Str) (s : State),
    Denotes immS imm.toNat → Denotes rdS rd.toNat →
    ∃ w : Word,
      exec (.encUJ immS rdS (bitString opcode)) s = .next (s.sample (.word w)) ∧
      w.extractLsb 31 31 = imm.extractLsb 20 20 ∧ w.extractLsb 30 21 = imm.extractLsb 10 1 ∧
      w.extractLsb 20 20 = imm.extractLsb 11 11 ∧ w.extractLsb 19 12 = imm.extractLsb 19 12 ∧
      w.extractLsb 11 7 = rd ∧ w.extractLsb 6 0 = opcode ∧
      bitString w = bitString (imm.extractLsb 20 20) ++ bitString (imm.extractLsb 10 1)
        ++ bitString (imm.extractLsb 11 11) ++ bitString (imm.extractLsb 19 12) ++ bitString rd ++ bitString opcode

/-- R34: bit 0 of the SB and UJ immediates is dropped. An even value and the odd one above it give the same response
whatever the other slots hold; with the other slots valid both give one word; the range check takes all 13 (21) bits:
8191 (2097151) is accepted, 8192 (2097152) is not. (The UJ bound is the spec's decision D14, log entry 14; R34's last
sentence, on the other formats, is not in this statement.) -/
def Obligations.BitZeroOfBranchAndJumpImmediatesIsDropped : Prop :=
  ∀ (k : Nat) (even odd : Str) (s : State), Denotes even (2 * k : Nat) → Denotes odd (2 * k + 1 : Nat) →
    (k < 4096 → ∀ rs2 rs1 funct3 opcode : Str,
      exec (.encSB even rs2 rs1 funct3 opcode) s = exec (.encSB odd rs2 rs1 funct3 opcode) s ∧
      (slotFault ⟨.rs2, .dec 5⟩ rs2 = none → slotFault ⟨.rs1, .dec 5⟩ rs1 = none →
        IsBinary funct3 3 → IsBinary opcode 7 →
        ∃ w : Word, exec (.encSB even rs2 rs1 funct3 opcode) s = .next (s.sample (.word w)) ∧
          exec (.encSB odd rs2 rs1 funct3 opcode) s = .next (s.sample (.word w)))) ∧
    (k < 1048576 → ∀ rd opcode : Str,
      exec (.encUJ even rd opcode) s = exec (.encUJ odd rd opcode) s ∧
      (slotFault ⟨.rd, .dec 5⟩ rd = none → IsBinary opcode 7 →
        ∃ w : Word, exec (.encUJ even rd opcode) s = .next (s.sample (.word w)) ∧
          exec (.encUJ odd rd opcode) s = .next (s.sample (.word w)))) ∧
    (4096 ≤ k → ∀ rs2 rs1 funct3 opcode : Str,
      exec (.encSB even rs2 rs1 funct3 opcode) s
        = .next (s.sample (.failed ⟨.range, some .imm, .tooWide⟩)) ∧
      exec (.encSB odd rs2 rs1 funct3 opcode) s
        = .next (s.sample (.failed ⟨.range, some .imm, .tooWide⟩))) ∧
    (1048576 ≤ k → ∀ rd opcode : Str,
      exec (.encUJ even rd opcode) s = .next (s.sample (.failed ⟨.range, some .imm, .tooWide⟩)) ∧
      exec (.encUJ odd rd opcode) s = .next (s.sample (.failed ⟨.range, some .imm, .tooWide⟩)))

/-- R35 (b), marked derived there: for each format every 32-bit word is the output of some request. -/
def Obligations.EveryWordIsTheOutputOfSomeRequest : Prop :=
  ∀ (fmt : Format) (w : Word), ∃ q : Request, (q.tag, fmt) ∈ acceptedTags ∧
    ∀ s : State, exec (.encode q) s = .next (s.sample (.encoded w (bitString w) (hex w)))

/-- R35 (a), marked derived there: for each format the word determines every field, but for `imm[0]` of SB and UJ. -/
def Obligations.TheWordDeterminesEveryField : Prop :=
  ∀ (fmt : Format) (q q' : Request) (s : State) (w : Word),
    exec (assemblerOf fmt q) s = .next (s.sample (.word w)) →
    exec (assemblerOf fmt q') s = .next (s.sample (.word w)) →
    ∀ (i : Nat) (spec : SlotSpec) (a b : Str), (slotTable fmt)[i]? = some spec →
      (slotStrings q)[i]? = some a → (slotStrings q')[i]? = some b → sameField fmt spec a b

/-- R52's corner case, marked derived there: a shift-immediate word can be asked for in format I, with the upper seven
bits and the amount as one `imm`, or in format R with the amount in the rs2 slot; the responses are equal whatever the
other slots hold. -/
def Obligations.ShiftImmediatesThroughEitherFormat : Prop :=
  ∀ (upper : BitVec 7) (amount : Nat) (immS amountS rs1 funct3 rd opcode : Str) (s : State),
    amount < 32 → Denotes amountS amount → Denotes immS (32 * upper.toNat + amount : Nat) →
    exec (.encI immS rs1 funct3 rd opcode) s = exec (.encR (bitString upper) amountS rs1 funct3 rd opcode) s

/-- R50 with R25's table (slot orders by decision D7, log entry 14; syntax errors by decision D6, log entry 13): an
assembler reports the fault of the first faulty slot in slot order, and with no faulty slot it gives a word. -/
def Obligations.AssemblersReportTheFirstFault : Prop :=
  ∀ (fmt : Format) (q : Request) (s : State),
    (∀ e, firstFault fmt q = some e → exec (assemblerOf fmt q) s = .next (s.sample (.failed e))) ∧
    (firstFault fmt q = none → ∃ w : Word, exec (assemblerOf fmt q) s = .next (s.sample (.word w)))

/-! ## DISPATCH -/

/-- R26, R67 (decisions D13, D20; log entry 18): RESOLVE accepts exactly the sixteen tags. -/
def Obligations.ResolveAcceptsExactlySixteenTags : Prop :=
  ∀ (tag : Str) (s : State),
    (∀ fmt, (tag, fmt) ∈ acceptedTags → exec (.resolve tag) s = .next (s.sample (.format fmt))) ∧
    ((∀ fmt, (tag, fmt) ∉ acceptedTags) →
      exec (.resolve tag) s = .next (s.sample (.failed ⟨.unsupportedFormat, none, .unknownTag⟩)))

/-- R69: ENCODE answers every request, with a success or with an error, never with a stop; a success carries the word
and both renderings, a failure the triple. -/
def Obligations.EncodeAlwaysAnswers : Prop :=
  ∀ (q : Request) (s : State),
    (∃ (w : Word) (b h : Str), exec (.encode q) s = .next (s.sample (.encoded w b h))) ∨
    (∃ e : EncodeError, exec (.encode q) s = .next (s.sample (.failed e)))

/-- R66: where the tag names a format and that format's assembler gives a word, ENCODE gives that word with the
renderings BINSTR and HEX give it (tags by decision D13, log entry 18). -/
def Obligations.EncodeRendersTheAssembledWord : Prop :=
  ∀ (fmt : Format) (q : Request) (s : State) (w : Word), (q.tag, fmt) ∈ acceptedTags →
    exec (assemblerOf fmt q) s = .next (s.sample (.word w)) →
    ∃ b h : Str, exec (.encode q) s = .next (s.sample (.encoded w b h)) ∧
      exec (.binstr w) s = .next (s.sample (.text b)) ∧ exec (.hex w) s = .next (s.sample (.text h))

/-- R75 (priority by decision D9, log entry 16; tags by D13; blanks by D22, log entry 15): ENCODE fails on an unknown
tag whatever the slots hold; else on the lowest empty slot below the arity; else as the first faulty slot says; else it
succeeds. -/
def Obligations.EncodeFollowsTheErrorPriority : Prop :=
  ∀ (q : Request) (s : State),
    ((∀ fmt, (q.tag, fmt) ∉ acceptedTags) →
      exec (.encode q) s = .next (s.sample (.failed ⟨.unsupportedFormat, none, .unknownTag⟩))) ∧
    ∀ fmt, (q.tag, fmt) ∈ acceptedTags →
      (∀ (i : Nat) (spec : SlotSpec), (slotTable fmt)[i]? = some spec → (slotStrings q)[i]? = some [] →
        (∀ j, j < i → (slotStrings q)[j]? ≠ some []) →
        exec (.encode q) s = .next (s.sample (.failed ⟨.missingField, some spec.field, .emptyField⟩))) ∧
      ((∀ i, i < arity fmt → (slotStrings q)[i]? ≠ some []) →
        (∀ e, firstFault fmt q = some e → exec (.encode q) s = .next (s.sample (.failed e))) ∧
        (firstFault fmt q = none →
          ∃ (w : Word) (b h : Str), exec (.encode q) s = .next (s.sample (.encoded w b h))))

/-- R68 (decision D8, log entry 15): slots at or beyond the arity never change the response. -/
def Obligations.SlotsBeyondTheArityNeverMatter : Prop :=
  ∀ (fmt : Format) (q q' : Request) (s : State), (q.tag, fmt) ∈ acceptedTags → q'.tag = q.tag →
    (∀ i, i < arity fmt → (slotStrings q')[i]? = (slotStrings q)[i]?) →
    exec (.encode q') s = exec (.encode q) s

/-- R70 (the table; codes and the split into reasons by decisions D6, D10; log entries 13, 17): the triples ENCODE can
answer are exactly the table's twenty-three. -/
def Obligations.EncodeProducesExactlyTheListedErrors : Prop :=
  ∀ e : EncodeError, e.listed = true ↔
    ∃ q : Request, ∀ s : State, exec (.encode q) s = .next (s.sample (.failed e))

/-- R15 (decisions D10, D11; log entry 17) of every response that the response ports carry in some state, and of every
response that ENCODE gives to a request (as a step records it; the record is no port, log entry 1): on success `ok` is 1,
the error ports are 0, and the word has 32 binary characters and a ten-character Hex Word; on failure `ok` is 0, there is
no word, `binary` or `hex`, and the three error ports carry the codes of one triple of R70's table, `err_field` being 0
exactly for UnsupportedFormatError. -/
def Obligations.ResponsePortsOfEncode : Prop :=
  ∀ r : Response,
    ((∃ s : State, s.response = r) ∨
      ∃ (q : Request) (s t : State), exec (.encode q) s = .next t ∧ t.sampled = r) →
    (r.okPort = 1 ∧ r.errKindPort = 0 ∧ r.errFieldPort = 0 ∧ r.errReasonPort = 0 ∧
      ∃ (w : Word) (b h : Str), r.wordPort = some w ∧ r.binaryPort = some b ∧ r.hexPort = some h ∧
        IsBinary b 32 ∧ b = bitString w ∧ h.length = 10) ∨
    (r.okPort = 0 ∧ r.wordPort = none ∧ r.binaryPort = none ∧ r.hexPort = none ∧
      (∃ e : EncodeError, e.listed = true ∧ r.errKindPort = e.kind.code ∧ r.errFieldPort = fieldId e.field ∧
        r.errReasonPort = e.reason.code) ∧
      1 ≤ r.errKindPort.toNat ∧ r.errKindPort.toNat ≤ 4 ∧ r.errReasonPort ≠ 0 ∧ r.errReasonPort ≠ 5 ∧
      (r.errFieldPort = 0 ↔ r.errKindPort = 3))
end

