-- ==== Sys2Proof/Laws/Decode.lean ====
section
/-! SUPPORT. What the pieces of the decoder and of the byte frame do, once. -/

namespace Sys2Proof

theorem except_ok_bind {ε α β : Type} (a : α) (f : α → Except ε β) :
    ((Except.ok a : Except ε α) >>= f) = f a := rfl

theorem except_bind_eq_ok {ε α β : Type} {x : Except ε α} {f : α → Except ε β} {b : β} :
    (x >>= f) = .ok b ↔ ∃ a, x = .ok a ∧ f a = .ok b := by
  cases x <;> simp [bind, Except.bind]

/-- No label is lost on its lane. -/
theorem decodeLabel_encodeLabel (f : Option FieldName) : decodeLabel (encodeLabel f) = .ok f := by
  rcases f with _ | f
  · rfl
  · cases f <;> rfl

/-- The form and mag lanes lose nothing of DEC2BIN's operand. -/
theorem decodeOperand_encodeOperand (v : DecOperand) :
    decodeOperand (encodeOperand v).1 (encodeOperand v).2 v.slot = .ok v := by
  rcases v with s | (n | n) <;> rfl

/-- The typed labels of the bench ports are exactly the labels of the right representation (R46). -/
theorem map_name_bind_decimal? {l : Option FieldName} (h : decimalLabel l = true) :
    (l.bind FieldName.decimal?).map DecimalField.name = l := by
  rcases l with _ | f
  · rfl
  · cases f <;> first | rfl | exact absurd h (by decide)

theorem map_name_bind_binary? {l : Option FieldName} (h : binaryLabel l = true) :
    (l.bind FieldName.binary?).map BinaryField.name = l := by
  rcases l with _ | f
  · rfl
  · cases f <;> first | rfl | exact absurd h (by decide)

theorem decimalLabel_map_name (d : Option DecimalField) : decimalLabel (d.map DecimalField.name) = true := by
  rcases d with _ | d
  · rfl
  · cases d <;> rfl

theorem binaryLabel_map_name (d : Option BinaryField) : binaryLabel (d.map BinaryField.name) = true := by
  rcases d with _ | d
  · rfl
  · cases d <;> rfl

/-- The bench ports lose nothing of DEC2BIN's operand. -/
theorem decOperand_int?_slot (b : BenchPorts) (v : DecOperand) (h : b.decInt = v.int?) : b.decOperand v.slot = v := by
  unfold BenchPorts.decOperand
  rw [h]
  cases v <;> rfl

/-- The label checks let through exactly the labels of the right representation (R46). -/
theorem checkDecimalLabel_eq_ok {f : Option FieldName} :
    checkDecimalLabel f = .ok () ↔ decimalLabel f = true := by
  rcases f with _ | f
  · simp [checkDecimalLabel, decimalLabel]
  · cases h : f.isDecimal <;> simp [checkDecimalLabel, decimalLabel, h]

theorem checkBinaryLabel_eq_ok {f : Option FieldName} :
    checkBinaryLabel f = .ok () ↔ binaryLabel f = true := by
  rcases f with _ | f
  · simp [checkBinaryLabel, binaryLabel]
  · cases h : f.isBinary <;> simp [checkBinaryLabel, binaryLabel, h]

theorem checkWidth_eq_ok {w : Nat} : checkWidth w = .ok () ↔ 0 < w := by
  unfold checkWidth
  split
  · simp_all
  · simp; omega

/-! ## The byte frame -/

theorem takeNat_replicate (k : Nat) (r : List Byte) :
    takeNat (List.replicate k 255#8 ++ r) = ((takeNat r).1 + 255 * k, (takeNat r).2) := by
  induction k with
  | zero => rfl
  | succ k ih =>
    rw [List.replicate_succ, List.cons_append, takeNat, if_pos rfl, ih]
    simp only [Prod.mk.injEq, and_true]
    omega

/-- A number is read back off the frame, whatever its size. -/
theorem takeNat_putNat (n : Nat) (r : List Byte) : takeNat (putNat n ++ r) = (n, r) := by
  have h : n % 255 < 255 := Nat.mod_lt _ (by omega)
  have e : (BitVec.ofNat 8 (n % 255)).toNat = n % 255 := by rw [BitVec.toNat_ofNat]; omega
  have hne : BitVec.ofNat 8 (n % 255) ≠ 255#8 := by
    intro hh
    have := congrArg BitVec.toNat hh
    rw [e] at this
    simp at this
    omega
  rw [putNat, List.append_assoc, takeNat_replicate, List.singleton_append, takeNat, if_neg hne, e]
  simp only [Prod.mk.injEq, and_true]
  omega

theorem takeStr_putStr (s : Str) (r : List Byte) : takeStr (putStr s ++ r) = (s, r) := by
  unfold takeStr putStr
  rw [List.append_assoc, takeNat_putNat]
  simp

theorem takeWord_putWord (w : Word) (r : List Byte) : takeWord (putWord w ++ r) = (w, r) := by
  simp only [takeWord, putWord, takeByte, List.cons_append, List.nil_append]
  congr 1
  apply BitVec.eq_of_toNat_eq
  simp only [BitVec.toNat_append, BitVec.extractLsb_toNat, Nat.shiftRight_eq_div_pow, Nat.shiftLeft_eq]
  have hw := w.isLt
  rw [← Nat.shiftLeft_eq, ← Nat.shiftLeft_eq, ← Nat.shiftLeft_eq, ← Nat.shiftLeft_add_eq_or_of_lt,
    ← Nat.shiftLeft_add_eq_or_of_lt, ← Nat.shiftLeft_add_eq_or_of_lt]
  · simp only [Nat.shiftLeft_eq]; omega
  all_goals omega

/-- A frame's lanes are read back off its bytes, whatever they hold. -/
theorem Frame.ofBytes_toBytes (f : Frame) : Frame.ofBytes f.toBytes = f := by
  have last := takeStr_putStr f.request.slot5 []
  rw [List.append_nil] at last
  unfold Frame.ofBytes Frame.toBytes
  simp only [List.append_assoc, List.cons_append, List.nil_append, takeByte, takeNat_putNat, takeWord_putWord,
    takeStr_putStr, last]

end Sys2Proof
end

