-- ==== Sys2Proof/Laws/State.lean ====
section
/-! SUPPORT. One lemma per field per update of State, and the response ports under each update. -/

namespace Sys2Proof.Machine

@[simp] theorem State.sample_request (s : State) (r : Response) : (s.sample r).request = s.request := rfl
@[simp] theorem State.sample_bench (s : State) (r : Response) : (s.sample r).bench = s.bench := rfl
@[simp] theorem State.sample_sampled (s : State) (r : Response) : (s.sample r).sampled = r := rfl
@[simp] theorem State.sample_ports (s : State) (r : Response) : (s.sample r).ports = s.ports := rfl
@[simp] theorem State.sample_sample (s : State) (r r' : Response) :
    (s.sample r).sample r' = s.sample r' := rfl

/-- Reading a response leaves the response ports as they are. -/
@[simp] theorem State.sample_response (s : State) (r : Response) : (s.sample r).response = s.response := rfl

/-- Taking an error is reading a failed response and nothing else. -/
theorem State.takeError_eq_sample (s : State) (e : EncodeError) : s.takeError e = s.sample (.failed e) := rfl

@[simp] theorem State.takeError_request (s : State) (e : EncodeError) : (s.takeError e).request = s.request := rfl
@[simp] theorem State.takeError_bench (s : State) (e : EncodeError) : (s.takeError e).bench = s.bench := rfl
@[simp] theorem State.takeError_sampled (s : State) (e : EncodeError) :
    (s.takeError e).sampled = .failed e := rfl

@[simp] theorem State.drive_request (s : State) (p : Ports) : (s.drive p).request = p.request := rfl
@[simp] theorem State.drive_bench (s : State) (p : Ports) : (s.drive p).bench = p.bench := rfl
@[simp] theorem State.drive_sampled (s : State) (p : Ports) : (s.drive p).sampled = s.sampled := rfl
@[simp] theorem State.drive_ports (s : State) (p : Ports) : (s.drive p).ports = p := rfl

/-- The response ports follow the request ports at once. -/
theorem State.drive_response (s : State) (p : Ports) :
    (s.drive p).response = (encodeRequest p.request.request).response := rfl

@[simp] theorem State.present_ports (s : State) (i : Instr) : (s.present i).ports = encode i := rfl
@[simp] theorem State.driveRequest_request (s : State) (p : RequestPorts) :
    (s.driveRequest p).request = p := rfl
@[simp] theorem State.driveRequest_bench (s : State) (p : RequestPorts) :
    (s.driveRequest p).bench = .composed := rfl

end Sys2Proof.Machine
end

