-- ==== Sys2Proof/Laws/Ops.lean ====
section
/-! SUPPORT. What each shared operation can do, once. -/

namespace Sys2Proof.Machine

/-! ## Results -/

@[simp] theorem deliver_ok (r : Response) (s : State) : deliver (.ok r) s = .next (s.sample r) := rfl
@[simp] theorem deliver_error (e : EncodeError) (s : State) :
    deliver (.error e) s = .next (s.sample (.failed e)) := rfl

@[simp] theorem Result.response_ok (r : Response) : Result.response (.ok r) = r := rfl
@[simp] theorem Result.response_error (e : EncodeError) : Result.response (.error e) = .failed e := rfl

/-- Delivering a result is reading the response it is. -/
theorem deliver_eq (r : Result Response) (s : State) : deliver r s = .next (s.sample r.response) := by
  cases r <;> rfl

/-- A delivered operation always goes on, and what is read does not depend on the state. -/
theorem deliver_samples (r : Result Response) : ∃ x, ∀ s, deliver r s = .next (s.sample x) :=
  ⟨r.response, deliver_eq r⟩

@[simp] theorem Result.ok_bind {α β : Type} (a : α) (f : α → Result β) : (Except.ok a >>= f) = f a := rfl
@[simp] theorem Result.error_bind {α β : Type} (e : EncodeError) (f : α → Result β) :
    ((Except.error e : Result α) >>= f) = .error e := rfl
@[simp] theorem Result.pure_eq {α : Type} (a : α) : (pure a : Result α) = .ok a := rfl

theorem Result.bind_eq_ok {α β : Type} {x : Result α} {f : α → Result β} {b : β} :
    (x >>= f) = .ok b ↔ ∃ a, x = .ok a ∧ f a = .ok b := by
  cases x <;> simp

theorem Result.bind_eq_error {α β : Type} {x : Result α} {f : α → Result β} {e : EncodeError} :
    (x >>= f) = .error e ↔ x = .error e ∨ ∃ a, x = .ok a ∧ f a = .error e := by
  cases x <;> simp

/-! ## The field primitives -/

theorem dec2binInt_eq_ok {field : Option FieldName} {v : Int} {w : Nat} {b : BitVec w} :
    dec2binInt field v w = .ok b ↔ 0 ≤ v ∧ v < 2 ^ w ∧ b = BitVec.ofInt w v := by
  unfold dec2binInt fail
  split
  · simp; omega
  · split
    · simp; omega
    · simp only [Except.ok.injEq, eq_comm (a := b)]
      constructor
      · intro h; exact ⟨by omega, by omega, h⟩
      · exact fun h => h.2.2

/-- DEC2BIN on a string succeeds exactly on the numerals of a value in range (R42, R44 a). -/
theorem dec2bin_eq_ok {field : Option FieldName} {s : Str} {w : Nat} {b : BitVec w} :
    dec2bin field s w = .ok b ↔
      isDecimal s = true ∧ 0 ≤ decimalValue s ∧ decimalValue s < 2 ^ w ∧ b = BitVec.ofInt w (decimalValue s) := by
  unfold dec2bin parseDec fail
  by_cases h : isDecimal s = true
  · simp [h, dec2binInt_eq_ok]
  · simp [h]

/-- What DEC2BIN fails with is the fault of its slot. -/
theorem dec2bin_cases (f : FieldName) (s : Str) (w : Nat) :
    (slotFault ⟨f, .dec w⟩ s = none ∧ dec2bin (some f) s w = .ok (BitVec.ofInt w (decimalValue s))) ∨
      ∃ e, slotFault ⟨f, .dec w⟩ s = some e ∧ dec2bin (some f) s w = .error e := by
  unfold slotFault dec2bin parseDec dec2binInt fail
  cases hs : isDecimal s
  · simp
  · simp only [if_true, Result.ok_bind]
    split
    · simp_all
    · split
      · simp_all
      · rename_i h; simp_all; omega

theorem isBit_iff {c : Code} : isBit c = true ↔ c = 0x30 ∨ c = 0x31 := by
  unfold isBit
  rw [Bool.or_eq_true, decide_eq_true_iff, decide_eq_true_iff]
  rfl

theorem all_isBit_iff {s : Str} : s.all isBit = true ↔ ∀ c ∈ s, c = 0x30 ∨ c = 0x31 := by
  simp only [List.all_eq_true, isBit_iff]

theorem isDigit_iff {c : Code} : isDigit c = true ↔ 0x30 ≤ c.toNat ∧ c.toNat ≤ 0x39 := by
  unfold isDigit
  rw [Bool.and_eq_true, decide_eq_true_iff, decide_eq_true_iff]

theorem binval_eq_ok {field : Option FieldName} {s : Str} {w : Nat} {b : BitVec w} :
    binval field s w = .ok b ↔ (s.length = w ∧ s.all isBit = true) ∧ b = BitVec.ofNat w (bitsValue s) := by
  unfold binval fail
  by_cases h : s.length = w ∧ s.all isBit = true
  · simp only [h, and_self, if_true, true_and, Except.ok.injEq, eq_comm]
  · rw [if_neg h]
    simp only [reduceCtorEq, false_iff]
    exact fun h' => h h'.1

theorem binval_cases (f : FieldName) (s : Str) (w : Nat) :
    (slotFault ⟨f, .bin w⟩ s = none ∧ binval (some f) s w = .ok (BitVec.ofNat w (bitsValue s))) ∨
      ∃ e, slotFault ⟨f, .bin w⟩ s = some e ∧ binval (some f) s w = .error e := by
  have hb : (fun c : Code => decide (c = 0x30) || decide (c = 0x31)) = isBit := by
    funext c; rfl
  unfold slotFault binval fail
  simp only [hb]
  split <;> simp_all

/-! ## Rendering -/

@[simp] theorem bitString_length {w : Nat} (v : BitVec w) : (bitString v).length = w := by
  simp [bitString]

/-- `str(v)<k>` is the character of bit `w-1-k` (00_scope.md section 5.1). -/
theorem bitString_getElem {w : Nat} (v : BitVec w) (k : Nat) (h : k < (bitString v).length) :
    (bitString v)[k] = if v.getLsbD (w - 1 - k) then ch1 else ch0 := by
  simp [bitString]

theorem bitString_all_isBit {w : Nat} (v : BitVec w) : (bitString v).all isBit = true := by
  rw [List.all_eq_true]
  intro c hc
  obtain ⟨k, _, rfl⟩ := List.mem_map.1 hc
  split <;> rfl

theorem bitsValue_lt (s : Str) : bitsValue s < 2 ^ s.length := by
  induction s with
  | nil => simp [bitsValue]
  | cons c cs ih =>
    simp only [bitsValue, List.length_cons, pow_succ]
    split <;> omega

/-- The first character is the most significant bit (R45). -/
theorem bitsValue_testBit (s : Str) (k : Nat) (h : k < s.length) :
    (bitsValue s).testBit (s.length - 1 - k) = decide (s[k] = ch1) := by
  induction s generalizing k with
  | nil => simp at h
  | cons c cs ih =>
    have hlt := bitsValue_lt cs
    cases k with
    | zero =>
      simp only [bitsValue, List.length_cons, Nat.add_sub_cancel, Nat.sub_zero, List.getElem_cons_zero]
      split
      · rename_i hc
        rw [Nat.testBit_two_pow_add_eq, Nat.testBit_lt_two_pow hlt]; simp [hc]
      · rename_i hc
        rw [Nat.zero_add, Nat.testBit_lt_two_pow hlt]; simp [hc]
    | succ k =>
      have hk : k < cs.length := by simpa using h
      have e : (c :: cs).length - 1 - (k + 1) = cs.length - 1 - k := by simp only [List.length_cons]; omega
      rw [e]
      simp only [bitsValue, List.getElem_cons_succ]
      rw [← ih k hk]
      split
      · exact Nat.testBit_two_pow_add_gt (by omega) _
      · rw [Nat.zero_add]

/-- Reading a rendering gives the vector back. -/
theorem binval_bitString {w : Nat} (field : Option FieldName) (v : BitVec w) :
    binval field (bitString v) w = .ok v := by
  rw [binval_eq_ok]
  refine ⟨⟨bitString_length v, bitString_all_isBit v⟩, ?_⟩
  apply BitVec.eq_of_getLsbD_eq
  intro i hi
  have hk : w - 1 - i < (bitString v).length := by simp; omega
  have h := bitsValue_testBit (bitString v) (w - 1 - i) hk
  rw [bitString_length, bitString_getElem] at h
  have e : w - 1 - (w - 1 - i) = i := by omega
  rw [e] at h
  rw [BitVec.getLsbD_ofNat, h]
  cases hv : v.getLsbD i <;> simp [hi, ch0, ch1]

/-! ## Operations -/

/-- What `exec` can do, once: every operation goes on, changes nothing but what was last read, and that is a
response that does not depend on the state; but for HEXS on content the spec gives no value. -/
theorem exec_cases (i : Instr) :
    (∃ r, ∀ s, exec i s = .next (s.sample r)) ∨
      (∃ str, i = .hexs str ∧ str.length = 32 ∧ str.all isBit = false ∧
        ∀ s, exec i s = .refused .hexsContent) := by
  cases i with
  | hexs str =>
    by_cases hl : str.length = 32
    · cases hb : str.all isBit
      · exact .inr ⟨str, rfl, hl, hb, fun s => by simp [exec, execHexs, hl, hb]⟩
      · exact .inl ⟨_, fun s => by simp [exec, execHexs, hl, hb]; rfl⟩
    · exact .inl ⟨_, fun s => by simp [exec, execHexs, hl, fail]; rfl⟩
  | binstr w => exact .inl ⟨_, fun _ => rfl⟩
  | hex w => exact .inl ⟨_, fun _ => rfl⟩
  | _ => exact .inl (deliver_samples _)

end Sys2Proof.Machine
end

