-- ==== Sys2Proof/Laws/Numerals.lean ====
section
/-! SUPPORT. Decimal numerals: how the value of a digit string grows, and a numeral for every number. -/

namespace Sys2Proof.Machine

theorem digitsValue_append (s t : Str) :
    digitsValue (s ++ t) = digitsValue s * 10 ^ t.length + digitsValue t := by
  induction s with
  | nil => simp [digitsValue]
  | cons c cs ih => simp only [List.cons_append, digitsValue, ih, List.length_append, pow_add]; ring

/-- A digit string is its own digit string: no digit is a minus sign. -/
theorem digitsOf_of_all_isDigit {s : Str} (h : s.all isDigit = true) : digitsOf s = s := by
  cases s with
  | nil => rfl
  | cons c cs =>
    have hc : c ≠ chMinus := by
      rintro rfl
      simp [List.all_cons, isDigit, chMinus] at h
    simp [digitsOf, hc]

theorem isDecimal_of_digits {s : Str} (hne : s ≠ []) (h : s.all isDigit = true) : isDecimal s = true := by
  unfold isDecimal
  rw [digitsOf_of_all_isDigit h, h]
  cases s <;> simp_all

theorem decimalValue_of_digits {s : Str} (h : s.all isDigit = true) : decimalValue s = digitsValue s := by
  unfold decimalValue
  rw [digitsOf_of_all_isDigit h]
  cases s with
  | nil => rfl
  | cons c cs =>
    have hc : c ≠ chMinus := by
      rintro rfl
      simp [List.all_cons, isDigit, chMinus] at h
    simp [hc]

/-- The code of a digit below ten. -/
def digitCode (n : Nat) : Code := BitVec.ofNat 8 (0x30 + n)

/-- The `d` lowest decimal digits of `n`, most significant first. -/
def numeral : Nat → Nat → Str
  | 0, _     => []
  | d + 1, n => numeral d (n / 10) ++ [digitCode (n % 10)]

@[simp] theorem numeral_length (d n : Nat) : (numeral d n).length = d := by
  induction d generalizing n with
  | zero => rfl
  | succ d ih => simp [numeral, ih]

theorem digitCode_toNat {n : Nat} (h : n < 10) : (digitCode n).toNat = 0x30 + n := by
  unfold digitCode
  rw [BitVec.toNat_ofNat]
  omega

theorem numeral_all_isDigit (d n : Nat) : (numeral d n).all isDigit = true := by
  induction d generalizing n with
  | zero => rfl
  | succ d ih =>
    have h : n % 10 < 10 := Nat.mod_lt _ (by omega)
    rw [numeral, List.all_append, ih]
    simp only [List.all_cons, List.all_nil, Bool.and_true, Bool.true_and, isDigit, digitCode_toNat h]
    simp; omega

theorem digitsValue_numeral (d n : Nat) : digitsValue (numeral d n) = n % 10 ^ d := by
  induction d generalizing n with
  | zero => simp [numeral, digitsValue, Nat.mod_one]
  | succ d ih =>
    have h : n % 10 < 10 := Nat.mod_lt _ (by omega)
    have e := digitCode_toNat h
    rw [numeral, digitsValue_append, ih]
    simp only [List.length_singleton, digitsValue, e, List.length_nil, pow_zero, mul_one, pow_one, add_zero]
    have := Nat.mod_mul (a := 10) (b := 10 ^ d) (x := n)
    rw [pow_succ, mul_comm (10 ^ d) 10, this]
    omega

/-- Every number has a numeral. -/
theorem exists_numeral (n : Nat) : ∃ s, s ≠ [] ∧ Denotes s n := by
  refine ⟨numeral (n + 1) n, ?_, ?_, ?_⟩
  · intro h
    have := congrArg List.length h
    simp at this
  · apply isDecimal_of_digits _ (numeral_all_isDigit _ _)
    intro h
    have := congrArg List.length h
    simp at this
  · rw [decimalValue_of_digits (numeral_all_isDigit _ _), digitsValue_numeral, Nat.mod_eq_of_lt]
    exact lt_trans (Nat.lt_succ_self n) (Nat.lt_pow_self (by omega))

end Sys2Proof.Machine
end

