-- ==== Sys2Proof/Laws/Dispatch.lean ====
section
/-! SUPPORT. What the grammar test, RESOLVE, the presence check, an assembler and ENCODE can do, once. -/

namespace Sys2Proof.Machine

/-- R40's pattern `^-?[0-9]+$`, as a condition on the string. -/
theorem isDecimal_iff (s : Str) :
    isDecimal s = true ↔
      ∃ ds : Str, (s = ds ∨ s = 0x2D :: ds) ∧ ds ≠ [] ∧ ∀ c ∈ ds, 0x30 ≤ c.toNat ∧ c.toNat ≤ 0x39 := by
  constructor
  · intro h
    unfold isDecimal at h
    rw [Bool.and_eq_true, List.all_eq_true] at h
    simp only [isDigit_iff] at h
    refine ⟨digitsOf s, ?_, fun hn => by simp [hn] at h, h.2⟩
    cases s with
    | nil => simp [digitsOf]
    | cons c cs =>
      by_cases hc : c = chMinus
      · right; simp only [digitsOf, hc, if_true]; rfl
      · left; simp [digitsOf, hc]
  · rintro ⟨ds, rfl | rfl, hne, hd⟩
    · exact isDecimal_of_digits hne (List.all_eq_true.2 fun c hc => isDigit_iff.2 (hd c hc))
    · have e : digitsOf (0x2D :: ds) = ds := by simp [digitsOf, chMinus]
      unfold isDecimal
      rw [e, Bool.and_eq_true, List.all_eq_true]
      exact ⟨by cases ds <;> simp_all, fun c hc => isDigit_iff.2 (hd c hc)⟩

/-- DEC2BIN on a numeral of a vector's value gives that vector. -/
theorem dec2bin_of_denotes {w : Nat} (field : Option FieldName) {s : Str} {b : BitVec w}
    (h : Denotes s b.toNat) : dec2bin field s w = .ok b := by
  rw [dec2bin_eq_ok, h.2]
  exact ⟨h.1, by omega, by exact_mod_cast b.isLt, by simp⟩

/-! ## Assemblers -/

/-- A validation and the fault it should report: both succeed or both fail, with one error. -/
def Agree {α : Type} (fault : Option EncodeError) (x : Result α) : Prop :=
  (fault = none ∧ ∃ a, x = .ok a) ∨ ∃ e, fault = some e ∧ x = .error e

theorem Agree.dec (f : FieldName) (s : Str) (w : Nat) :
    Agree (slotFault ⟨f, .dec w⟩ s) (dec2bin (some f) s w) :=
  (dec2bin_cases f s w).imp (fun h => ⟨h.1, _, h.2⟩) id

theorem Agree.bin (f : FieldName) (s : Str) (w : Nat) :
    Agree (slotFault ⟨f, .bin w⟩ s) (binval (some f) s w) :=
  (binval_cases f s w).imp (fun h => ⟨h.1, _, h.2⟩) id

theorem Agree.bind {α β : Type} {spec : SlotSpec} {s : Str} {rest : List (SlotSpec × Str)} {x : Result α}
    {f : α → Result β} (h : Agree (slotFault spec s) x)
    (k : ∀ a, Agree (rest.findSome? fun y => slotFault y.1 y.2) (f a)) :
    Agree (((spec, s) :: rest).findSome? fun y => slotFault y.1 y.2) (x >>= f) := by
  rcases h with ⟨h, a, rfl⟩ | ⟨e, h, rfl⟩
  · simpa [h] using k a
  · exact .inr ⟨e, by simp [h], rfl⟩

/-- An assembler fails exactly with the first fault of its slots (R50). -/
theorem assemble_cases (fmt : Format) (q : Request) : Agree (firstFault fmt q) (assemble fmt q) := by
  cases fmt <;>
    repeat (first
      | exact .inl ⟨rfl, _, rfl⟩
      | refine Agree.bind (Agree.dec _ _ _) fun _ => ?_
      | refine Agree.bind (Agree.bin _ _ _) fun _ => ?_)

/-- An assembler on its own delivers what it gives inside ENCODE. -/
theorem exec_assemblerOf (fmt : Format) (q : Request) (s : State) :
    exec (assemblerOf fmt q) s = deliver (do return .word (← assemble fmt q)) s := by
  cases fmt <;> rfl

/-! ## DISPATCH -/

theorem resolve_eq_ok {tag : Str} {fmt : Format} : resolve tag = .ok fmt ↔ (tag, fmt) ∈ acceptedTags := by
  have hl : ∀ c : Code, ∀ d ∈ [chR, chI, chS, chB, chU, chJ], (lower c = d ↔ c = d ∨ c = d - 0x20) := by decide
  simp only [List.forall_mem_cons] at hl
  have hr := fun c => (hl c).1
  have hi := fun c => (hl c).2.1
  have hs := fun c => (hl c).2.2.1
  have hb := fun c => (hl c).2.2.2.1
  have hu := fun c => (hl c).2.2.2.2.1
  have hj := fun c => (hl c).2.2.2.2.2.1
  rcases tag with _ | ⟨a, _ | ⟨b, _ | ⟨c, t⟩⟩⟩
  · simp [resolve, fail, acceptedTags]
  · by_cases h : a ∈ ([0x52, 0x72, 0x49, 0x69, 0x53, 0x73, 0x55, 0x75] : List Code)
    · simp only [List.mem_cons, List.not_mem_nil, or_false] at h
      rcases h with rfl | rfl | rfl | rfl | rfl | rfl | rfl | rfl <;> cases fmt <;> decide
    · simp only [List.mem_cons, List.not_mem_nil, or_false, not_or] at h
      unfold resolve fail acceptedTags
      simp only [List.map_cons, List.map_nil, List.cons.injEq, and_true, hr, hi, hs, hu, reduceCtorEq, and_false,
        if_false]
      simp_all [chR, chI, chS, chU]
  · by_cases h : a ∈ ([0x53, 0x73, 0x55, 0x75] : List Code)
    · by_cases h' : b ∈ ([0x42, 0x62, 0x4A, 0x6A] : List Code)
      · simp only [List.mem_cons, List.not_mem_nil, or_false] at h h'
        rcases h with rfl | rfl | rfl | rfl <;> rcases h' with rfl | rfl | rfl | rfl <;> cases fmt <;> decide
      · simp only [List.mem_cons, List.not_mem_nil, or_false, not_or] at h'
        unfold resolve fail acceptedTags
        simp only [List.map_cons, List.map_nil, List.cons.injEq, and_true, hr, hi, hs, hu, hb, hj, reduceCtorEq,
          and_false, if_false]
        simp_all [chB, chJ]
    · simp only [List.mem_cons, List.not_mem_nil, or_false, not_or] at h
      unfold resolve fail acceptedTags
      simp only [List.map_cons, List.map_nil, List.cons.injEq, and_true, hr, hi, hs, hu, hb, hj, reduceCtorEq,
        and_false, if_false]
      simp_all [chS, chU]
  · simp [resolve, fail, acceptedTags]

theorem resolve_eq_error {tag : Str} {e : EncodeError} :
    resolve tag = .error e ↔ e = ⟨.unsupportedFormat, none, .unknownTag⟩ ∧ ∀ fmt, (tag, fmt) ∉ acceptedTags := by
  simp only [← resolve_eq_ok]
  unfold resolve fail
  simp only
  repeat (split; · simp)
  simp [eq_comm]

/-- The presence check finds nothing, or the lowest empty slot below the arity (R68). -/
theorem missingField_cases (fmt : Format) (q : Request) :
    (missingField fmt q = none ∧ ∀ i, i < arity fmt → (slotStrings q)[i]? ≠ some []) ∨
      ∃ (i : Nat) (spec : SlotSpec), (slotTable fmt)[i]? = some spec ∧ (slotStrings q)[i]? = some [] ∧
        (∀ j, j < i → (slotStrings q)[j]? ≠ some []) ∧ missingField fmt q = some spec.field := by
  cases h : missingField fmt q with
  | none =>
    refine .inl ⟨rfl, fun i hi he => ?_⟩
    unfold missingField readSlots at h
    rw [List.findSome?_eq_none_iff] at h
    have hs : (slotTable fmt)[i]? = some (slotTable fmt)[i] := List.getElem?_eq_getElem hi
    have hm : ((slotTable fmt)[i], []) ∈ (slotTable fmt).zip (slotStrings q) :=
      List.mem_iff_getElem?.2 ⟨i, List.getElem?_zip_eq_some.2 ⟨hs, he⟩⟩
    simpa using h _ hm
  | some f =>
    right
    unfold missingField readSlots at h
    rw [List.findSome?_eq_some_iff] at h
    obtain ⟨l1, a, l2, hz, hf, hl⟩ := h
    have ha : ((slotTable fmt).zip (slotStrings q))[l1.length]? = some a := by rw [hz]; simp
    rw [List.getElem?_zip_eq_some] at ha
    split at hf
    · rename_i hn
      cases hf
      refine ⟨l1.length, a.1, ha.1, ha.2.trans (by rw [hn]), fun j hj hc => ?_, rfl⟩
      have hlt : l1.length < (slotTable fmt).length := by
        by_contra hcon
        rw [List.getElem?_eq_none (by omega)] at ha
        simp at ha
      have hs : (slotTable fmt)[j]? = some (slotTable fmt)[j] := List.getElem?_eq_getElem (by omega)
      have hm : ((slotTable fmt).zip (slotStrings q))[j]? = some ((slotTable fmt)[j], []) :=
        List.getElem?_zip_eq_some.2 ⟨hs, hc⟩
      rw [hz, List.getElem?_append_left hj] at hm
      simpa using hl _ (List.mem_iff_getElem?.2 ⟨j, hm⟩)
    · cases hf

/-- ENCODE always goes on, and what is read is its result as a response. -/
theorem exec_encode (q : Request) (s : State) :
    exec (.encode q) s = .next (s.sample (encodeRequest q).response) := deliver_eq _ _

/-- What ENCODE can give: a word with its renderings, or an error (R66, R69). -/
theorem encodeRequest_cases (q : Request) :
    (∃ w, encodeRequest q = .ok (.encoded w (binstr w) (hex w))) ∨ ∃ e, encodeRequest q = .error e := by
  cases h : encodeRequest q with
  | error e => exact .inr ⟨e, rfl⟩
  | ok r =>
    unfold encodeRequest at h
    simp only [Result.bind_eq_ok] at h
    obtain ⟨_, _, _, _, w, _, hr⟩ := h
    cases hr
    exact .inl ⟨w, rfl⟩

end Sys2Proof.Machine
end

