-- ==== Sys2Proof/Laws/Layout.lean ====
section
/-! SUPPORT. What the six word layouts and the renderers do, as arithmetic on the fields' values, once. -/

namespace Sys2Proof.Machine

/-- Concatenation renders as concatenation (00_scope.md section 5.2). -/
theorem bitString_append {n m : Nat} (a : BitVec n) (b : BitVec m) :
    bitString (a ++ b) = bitString a ++ bitString b := by
  apply List.ext_getElem
  · simp
  · intro k h1 h2
    have hk : k < n + m := by simpa using h1
    have hL : (a ++ b).getLsbD (n + m - 1 - k)
        = if k < n then a.getLsbD (n - 1 - k) else b.getLsbD (m - 1 - (k - n)) := by
      rw [BitVec.getLsbD_append]
      by_cases hn : k < n
      · rw [if_neg (by omega), if_pos hn]; congr 1; omega
      · rw [if_pos (by omega), if_neg hn]; congr 1; omega
    rw [bitString_getElem, hL, List.getElem_append]
    by_cases hn : k < n
    · have : k < (bitString a).length := by simpa using hn
      rw [dif_pos this, bitString_getElem, if_pos hn]
    · have : ¬ k < (bitString a).length := by simpa using hn
      rw [dif_neg this, bitString_getElem, if_neg hn, bitString_length]

theorem toNat_append_eq {n m : Nat} (a : BitVec n) (b : BitVec m) :
    (a ++ b).toNat = a.toNat * 2 ^ m + b.toNat := by
  rw [BitVec.toNat_append, ← Nat.shiftLeft_add_eq_or_of_lt b.isLt, Nat.shiftLeft_eq]

theorem packR_toNat (funct7 : BitVec 7) (rs2 rs1 : BitVec 5) (funct3 : BitVec 3) (rd : BitVec 5) (opcode : BitVec 7) :
    (packR funct7 rs2 rs1 funct3 rd opcode).toNat
      = funct7.toNat * 2 ^ 25 + rs2.toNat * 2 ^ 20 + rs1.toNat * 2 ^ 15 + funct3.toNat * 2 ^ 12 + rd.toNat * 2 ^ 7
        + opcode.toNat := by
  have : packR funct7 rs2 rs1 funct3 rd opcode
      = (funct7 ++ rs2 ++ rs1 ++ funct3 ++ rd ++ opcode : BitVec (7 + 5 + 5 + 3 + 5 + 7)) := rfl
  rw [this]
  simp only [toNat_append_eq]
  omega

theorem packI_toNat (imm : BitVec 12) (rs1 : BitVec 5) (funct3 : BitVec 3) (rd : BitVec 5) (opcode : BitVec 7) :
    (packI imm rs1 funct3 rd opcode).toNat
      = imm.toNat * 2 ^ 20 + rs1.toNat * 2 ^ 15 + funct3.toNat * 2 ^ 12 + rd.toNat * 2 ^ 7 + opcode.toNat := by
  have : packI imm rs1 funct3 rd opcode
      = (imm ++ rs1 ++ funct3 ++ rd ++ opcode : BitVec (12 + 5 + 3 + 5 + 7)) := rfl
  rw [this]
  simp only [toNat_append_eq]
  omega

/-- Layout S is layout R with the immediate's halves in the places of `funct7` and `rd`. -/
theorem packS_eq (imm : BitVec 12) (rs2 rs1 : BitVec 5) (funct3 : BitVec 3) (opcode : BitVec 7) :
    packS imm rs2 rs1 funct3 opcode = packR (imm.extractLsb 11 5) rs2 rs1 funct3 (imm.extractLsb 4 0) opcode := rfl

theorem packSB_toNat (imm : BitVec 13) (rs2 rs1 : BitVec 5) (funct3 : BitVec 3) (opcode : BitVec 7) :
    (packSB imm rs2 rs1 funct3 opcode).toNat
      = imm.toNat / 2 ^ 12 % 2 * 2 ^ 31 + imm.toNat / 2 ^ 5 % 2 ^ 6 * 2 ^ 25 + rs2.toNat * 2 ^ 20 + rs1.toNat * 2 ^ 15
        + funct3.toNat * 2 ^ 12 + imm.toNat / 2 % 2 ^ 4 * 2 ^ 8 + imm.toNat / 2 ^ 11 % 2 * 2 ^ 7 + opcode.toNat := by
  have key : ∀ (x : BitVec 1) (y : BitVec 6) (z : BitVec 4) (u : BitVec 1),
      (x ++ y ++ rs2 ++ rs1 ++ funct3 ++ z ++ u ++ opcode : BitVec (1 + 6 + 5 + 5 + 3 + 4 + 1 + 7)).toNat
        = x.toNat * 2 ^ 31 + y.toNat * 2 ^ 25 + rs2.toNat * 2 ^ 20 + rs1.toNat * 2 ^ 15 + funct3.toNat * 2 ^ 12
          + z.toNat * 2 ^ 8 + u.toNat * 2 ^ 7 + opcode.toNat := by
    intro x y z u
    simp only [toNat_append_eq]
    omega
  refine (key (imm.extractLsb 12 12) (imm.extractLsb 10 5) (imm.extractLsb 4 1) (imm.extractLsb 11 11)).trans ?_
  simp only [BitVec.extractLsb_toNat, Nat.shiftRight_eq_div_pow, Nat.reducePow, Nat.reduceSub, Nat.reduceAdd]

theorem packU_toNat (imm : BitVec 20) (rd : BitVec 5) (opcode : BitVec 7) :
    (packU imm rd opcode).toNat = imm.toNat * 2 ^ 12 + rd.toNat * 2 ^ 7 + opcode.toNat := by
  have : packU imm rd opcode = (imm ++ rd ++ opcode : BitVec (20 + 5 + 7)) := rfl
  rw [this]
  simp only [toNat_append_eq]
  omega

theorem packUJ_toNat (imm : BitVec 21) (rd : BitVec 5) (opcode : BitVec 7) :
    (packUJ imm rd opcode).toNat
      = imm.toNat / 2 ^ 20 % 2 * 2 ^ 31 + imm.toNat / 2 % 2 ^ 10 * 2 ^ 21 + imm.toNat / 2 ^ 11 % 2 * 2 ^ 20
        + imm.toNat / 2 ^ 12 % 2 ^ 8 * 2 ^ 12 + rd.toNat * 2 ^ 7 + opcode.toNat := by
  have key : ∀ (x : BitVec 1) (y : BitVec 10) (z : BitVec 1) (u : BitVec 8),
      (x ++ y ++ z ++ u ++ rd ++ opcode : BitVec (1 + 10 + 1 + 8 + 5 + 7)).toNat
        = x.toNat * 2 ^ 31 + y.toNat * 2 ^ 21 + z.toNat * 2 ^ 20 + u.toNat * 2 ^ 12 + rd.toNat * 2 ^ 7
          + opcode.toNat := by
    intro x y z u
    simp only [toNat_append_eq]
    omega
  refine (key (imm.extractLsb 20 20) (imm.extractLsb 10 1) (imm.extractLsb 11 11) (imm.extractLsb 19 12)).trans ?_
  simp only [BitVec.extractLsb_toNat, Nat.shiftRight_eq_div_pow, Nat.reducePow, Nat.reduceSub, Nat.reduceAdd]

/-- A nibble is a digit of the word's base-sixteen numeral (20_memory.md R22). -/
theorem nibble_toNat (w : Word) (j : Nat) (hj : j < 8) : (nibble w j).toNat = w.toNat / 16 ^ (7 - j) % 16 := by
  unfold nibble
  rw [BitVec.extractLsb'_toNat, Nat.shiftRight_eq_div_pow]
  have : 28 - 4 * j = 4 * (7 - j) := by omega
  rw [this, pow_mul]
  rfl

/-- R64's table by its two runs. -/
theorem hexDigit_eq (n : BitVec 4) :
    hexDigit n
      = if n.toNat < 10 then BitVec.ofNat 8 (0x30 + n.toNat) else BitVec.ofNat 8 (0x61 + (n.toNat - 10)) := by
  revert n
  decide

end Sys2Proof.Machine
end

