-- ==== Sys2Proof/Tests/Slice0.lean ====
section
/-! SUPPORT. The model's own tests. Expected results come from the spec's vectors
      (spec/95_test_vectors.md) or from its
worked examples and tables, never from the model; the frames are written out from the model's own frame description
(log entry 3) and the ASCII table (10_state.md R17). -/

namespace Sys2Proof.Tests

open Sys2Proof.Machine

/-! ## Helpers -/

/-- A string in ASCII codes. -/
def chars (s : List Char) : Str := s.map fun c => BitVec.ofNat 8 c.toNat

/-- A request with its slots; slots not written are empty. -/
def req (tag : Str) (fields : List Str) : Request := .ofFields tag fields

/-- The response that an operation gives, from reset. -/
def run (i : Instr) : Option Response :=
  match exec i State.reset with
  | .next t    => some t.sampled
  | .fault _   => none
  | .refused _ => none

/-- The word and the Hex Word an operation gives. -/
def wordHex (i : Instr) : Option (Word × Str) := do
  let r ← run i
  return (← r.wordPort, ← r.hexPort)

def failure (kind : ErrKind) (field : Option FieldName) (reason : ErrReason) : Option Response :=
  some (.failed ⟨kind, field, reason⟩)

def op0110011 : Str := chars ['0', '1', '1', '0', '0', '1', '1']
def op0010011 : Str := chars ['0', '0', '1', '0', '0', '1', '1']
def op0100011 : Str := chars ['0', '1', '0', '0', '0', '1', '1']
def op1100011 : Str := chars ['1', '1', '0', '0', '0', '1', '1']
def op0110111 : Str := chars ['0', '1', '1', '0', '1', '1', '1']
def op0010111 : Str := chars ['0', '0', '1', '0', '1', '1', '1']
def op1101111 : Str := chars ['1', '1', '0', '1', '1', '1', '1']
def f000 : Str := chars ['0', '0', '0']

/-! ## Well-formedness refuses -/

/-- R42: the width is positive. -/
theorem test_wf_refuses_dec2bin_width_zero :
    (Instr.dec2bin (some .rs1) (.str (chars ['5'])) 0).wf = false := by decide

/-- R46. -/
theorem test_wf_refuses_dec2bin_of_a_binary_field :
    (Instr.dec2bin (some .funct3) (.str (chars ['5'])) 3).wf = false := by decide

/-- R46. -/
theorem test_wf_refuses_binval_of_a_decimal_field :
    (Instr.binval (some .rd) (chars ['0', '0', '0', '1', '1']) 5).wf = false := by decide

theorem test_wf_accepts_boundary_widths :
    (Instr.dec2bin (some .imm) (.int (-1)) 1).wf = true ∧ (Instr.binval none [] 0).wf = true := by decide

/-! ## Decoding: one frame per constructor, written out byte by byte

unit, label, width, form, mag, the word's four bytes, then length and characters of the tag and of each slot. -/

theorem test_decode_encR :
    decodeBytes [1, 0, 0, 0, 0, 0, 0, 0, 0, 0, 7, 0x30, 0x30, 0x30, 0x30, 0x30, 0x30, 0x30, 1, 0x32, 1, 0x31, 3,
      0x30, 0x30, 0x30, 1, 0x33, 7, 0x30, 0x31, 0x31, 0x30, 0x30, 0x31, 0x31]
      = .ok (.encR (chars ['0', '0', '0', '0', '0', '0', '0']) (chars ['2']) (chars ['1']) (chars ['0', '0', '0'])
      (chars ['3']) (chars ['0', '1', '1', '0', '0', '1', '1'])) := by rfl

theorem test_decode_encI :
    decodeBytes [2, 0, 0, 0, 0, 0, 0, 0, 0, 0, 1, 0x35, 2, 0x31, 0x30, 3, 0x30, 0x30, 0x30, 1, 0x33, 7, 0x30, 0x30,
      0x31, 0x30, 0x30, 0x31, 0x31]
      = .ok (.encI (chars ['5']) (chars ['1', '0']) (chars ['0', '0', '0']) (chars ['3']) (chars ['0', '0', '1',
      '0', '0', '1', '1'])) := by rfl

theorem test_decode_encS :
    decodeBytes [3, 0, 0, 0, 0, 0, 0, 0, 0, 0, 2, 0x38, 0x38, 1, 0x32, 1, 0x33, 3, 0x30, 0x30, 0x30, 7, 0x30, 0x31,
      0x30, 0x30, 0x30, 0x31, 0x31]
      = .ok (.encS (chars ['8', '8']) (chars ['2']) (chars ['3']) (chars ['0', '0', '0']) (chars ['0', '1', '0',
      '0', '0', '1', '1'])) := by rfl

theorem test_decode_encSB :
    decodeBytes [4, 0, 0, 0, 0, 0, 0, 0, 0, 0, 1, 0x38, 1, 0x32, 1, 0x31, 3, 0x30, 0x30, 0x30, 7, 0x31, 0x31, 0x30,
      0x30, 0x30, 0x31, 0x31]
      = .ok (.encSB (chars ['8']) (chars ['2']) (chars ['1']) (chars ['0', '0', '0']) (chars ['1', '1', '0', '0',
      '0', '1', '1'])) := by rfl

theorem test_decode_encU :
    decodeBytes [5, 0, 0, 0, 0, 0, 0, 0, 0, 0, 5, 0x37, 0x34, 0x35, 0x36, 0x35, 1, 0x35, 7, 0x30, 0x31, 0x31, 0x30,
      0x31, 0x31, 0x31]
      = .ok (.encU (chars ['7', '4', '5', '6', '5']) (chars ['5']) (chars ['0', '1', '1', '0', '1', '1',
      '1'])) := by rfl

theorem test_decode_encUJ :
    decodeBytes [6, 0, 0, 0, 0, 0, 0, 0, 0, 0, 4, 0x32, 0x30, 0x34, 0x38, 1, 0x31, 7, 0x31, 0x31, 0x30, 0x31, 0x31,
      0x31, 0x31]
      = .ok (.encUJ (chars ['2', '0', '4', '8']) (chars ['1']) (chars ['1', '1', '0', '1', '1', '1', '1'])) := by rfl

theorem test_decode_parseDec :
    decodeBytes [7, 0, 0, 0, 0, 0, 0, 0, 0, 0, 2, 0x2d, 0x31]
      = .ok (.parseDec (chars ['-', '1'])) := by rfl

theorem test_decode_dec2bin_string :
    decodeBytes [8, 5, 5, 0, 0, 0, 0, 0, 0, 0, 2, 0x33, 0x31]
      = .ok (.dec2bin (some .rs1) (.str (chars ['3', '1'])) 5) := by rfl

theorem test_decode_dec2bin_negative_integer :
    decodeBytes [8, 7, 0x0c, 2, 3, 0, 0, 0, 0, 0]
      = .ok (.dec2bin (some .imm) (.int (-4)) 12) := by rfl

theorem test_decode_binval :
    decodeBytes [9, 2, 3, 0, 0, 0, 0, 0, 0, 0, 3, 0x31, 0x30, 0x31]
      = .ok (.binval (some .funct3) (chars ['1', '0', '1']) 3) := by rfl

theorem test_decode_binstr :
    decodeBytes [0x0a, 0, 0, 0, 0, 0x12, 0x34, 0x56, 0x78, 0]
      = .ok (.binstr 0x12345678) := by rfl

theorem test_decode_hex :
    decodeBytes [0x0b, 0, 0, 0, 0, 0xde, 0xad, 0xbe, 0xef, 0]
      = .ok (.hex 0xdeadbeef) := by rfl

theorem test_decode_hexs :
    decodeBytes [0x0c, 0, 0, 0, 0, 0, 0, 0, 0, 0, 2, 0x30, 0x31]
      = .ok (.hexs (chars ['0', '1'])) := by rfl

theorem test_decode_resolve :
    decodeBytes [0x0d, 0, 0, 0, 0, 0, 0, 0, 0, 2, 0x73, 0x42]
      = .ok (.resolve (chars ['s', 'B'])) := by rfl

theorem test_decode_encode :
    decodeBytes [0, 0, 0, 0, 0, 0, 0, 0, 0, 1, 0x55, 1, 0x31, 1, 0x31, 7, 0x30, 0x31, 0x31, 0x30, 0x31, 0x31, 0x31,
      4, 0x6a, 0x75, 0x6e, 0x6b]
      = .ok (.encode (req (chars ['U']) [(chars ['1']), (chars ['1']), (chars ['0', '1', '1', '0', '1', '1', '1']),
      (chars ['j', 'u', 'n', 'k'])])) := by rfl

/-- The table's number: the same frame, first byte least significant; bytes beyond the number read as 0. -/
theorem test_decode_table_word :
    decodeTableWord 72 0x93015500000000000b = some (.hex 0x00550193) ∧
      decodeTableWord 32 0 = some (.encode (req [] [])) := ⟨rfl, rfl⟩

/-- A step from reset with that number presented runs exactly that operation. -/
theorem test_step_runs_the_table_word :
    step (State.reset.withFetchWord 72 0x93015500000000000b)
      = exec (.hex 0x00550193) (State.reset.withFetchWord 72 0x93015500000000000b) := by rfl

/-- Every reason for which a frame is rejected (log entry 10). -/
theorem test_decode_rejects :
    decodeBytes [14] = .error (.unknownUnit 14) ∧
    decodeBytes [8, 8, 5] = .error (.unknownLabel 8) ∧
    decodeBytes [8, 5, 5, 3] = .error (.unknownForm 3) ∧
    decodeBytes [8, 5, 0] = .error .zeroWidth ∧
    decodeBytes [8, 2, 3] = .error (.labelNotDecimal .funct3) ∧
    decodeBytes [9, 4, 5] = .error (.labelNotBinary .rd) := ⟨rfl, rfl, rfl, rfl, rfl, rfl⟩

/-! ## The operations, against spec/95_test_vectors.md -/

/-- V-R. -/
theorem test_encR_add :
    run (.encR (chars ['0', '0', '0', '0', '0', '0', '0']) (chars ['2']) (chars ['1']) (chars ['0', '0', '0'])
      (chars ['3']) (chars ['0', '1', '1', '0', '0', '1', '1'])) = some (.word 0x002081b3) := by decide

theorem test_encR_sub :
    run (.encR (chars ['0', '1', '0', '0', '0', '0', '0']) (chars ['7']) (chars ['6']) (chars ['0', '0', '0'])
      (chars ['5']) (chars ['0', '1', '1', '0', '0', '1', '1'])) = some (.word 0x407302b3) := by decide

/-- V-I. -/
theorem test_encI_minus_zero :
    run (.encI (chars ['-', '0']) (chars ['1', '0']) (chars ['0', '0', '0']) (chars ['3']) (chars ['0', '0', '1',
      '0', '0', '1', '1'])) = some (.word 0x00050193) := by decide

theorem test_encI_rd_is_decimal :
    run (.encI (chars ['5']) (chars ['1', '0']) (chars ['0', '0', '0']) (chars ['0', '0', '0', '1', '1'])
      (chars ['0', '0', '1', '0', '0', '1', '1'])) = some (.word 0x00550593) := by decide

/-- S5. -/
theorem test_encS_split :
    run (.encS (chars ['8', '8']) (chars ['2']) (chars ['3']) (chars ['0', '0', '0']) (chars ['0', '1', '0', '0',
      '0', '1', '1'])) = some (.word 0x04218c23) := by decide

/-- V-S, R50: the first faulty slot. -/
theorem test_encS_fails_on_rs2 :
    run (.encS (chars ['8', '8']) (chars ['3', '2']) (chars ['3']) (chars ['0', '0', '0', '0']) (chars ['0', '1',
      '0', '0', '0', '1', '1'])) = failure .range (some .rs2) .tooWide := by decide

/-- V-SB. -/
theorem test_encSB_backward :
    run (.encSB (chars ['8', '1', '8', '8']) (chars ['0']) (chars ['5']) (chars ['0', '0', '1']) (chars ['1', '1',
      '0', '0', '0', '1', '1'])) = some (.word 0xfe029ee3) := by decide

theorem test_encSB_bit_eleven :
    run (.encSB (chars ['2', '0', '4', '8']) (chars ['0']) (chars ['0']) (chars ['0', '0', '0']) (chars ['1', '1',
      '0', '0', '0', '1', '1'])) = some (.word 0x000000e3) := by decide

/-- V-U. -/
theorem test_encU_lui :
    run (.encU (chars ['7', '4', '5', '6', '5']) (chars ['5']) (chars ['0', '1', '1', '0', '1', '1', '1'])) = some
      (.word 0x123452b7) := by decide

theorem test_encU_too_wide :
    run (.encU (chars ['1', '0', '4', '8', '5', '7', '6']) (chars ['5']) (chars ['0', '1', '1', '0', '1', '1',
      '1'])) = failure .range (some .imm) .tooWide := by decide

/-- V-UJ. -/
theorem test_encUJ_mixed :
    run (.encUJ (chars ['7', '0', '3', '7', '1', '0']) (chars ['3']) (chars ['1', '1', '0', '1', '1', '1',
      '1'])) = some (.word 0x4dfab1ef) := by decide

theorem test_encUJ_backward :
    run (.encUJ (chars ['2', '0', '9', '7', '1', '4', '4']) (chars ['0']) (chars ['1', '1', '0', '1', '1', '1',
      '1'])) = some (.word 0xff9ff06f) := by decide

/-- R41. -/
theorem test_parseDec_leading_zeros :
    run (.parseDec (chars ['-', '0', '0', '3', '1'])) = some (.integer (-31)) := by decide

/-- R40. -/
theorem test_parseDec_plus_sign :
    run (.parseDec (chars ['+', '5'])) = failure .format none .badDecimalSyntax := by decide

/-- V-D. -/
theorem test_dec2bin_leading_zeros :
    run (.dec2bin (some .rs1) (.str (chars ['0', '0', '7'])) 5) = some (.bits 5 0b00111) := by decide

theorem test_dec2bin_negative_before_too_wide :
    run (.dec2bin (some .imm) (.str (chars ['-', '9', '9', '9', '9', '9'])) 5) = failure .range
      (some .imm) .negative := by decide

/-- V-B. -/
theorem test_binval_most_significant_first :
    run (.binval (some .funct7) (chars ['0', '1', '0', '0', '0', '0', '0']) 7) = some (.bits 7 32) := by decide

/-- V-B: a trailing newline is a mismatch. R45's pseudocode at width 0: no length fault, no character to check. -/
theorem test_binval_length :
    run (.binval (some .funct3) (chars ['0', '0', '0', '\n']) 3) = failure .format (some .funct3) .badBinaryPattern ∧
      run (.binval none [] 0) = some (.bits 0 0) := by decide

/-- R60. -/
theorem test_binstr :
    run (.binstr 0x00550193) = some (.text (chars ['0', '0', '0', '0', '0', '0', '0', '0', '0', '1', '0', '1', '0',
      '1', '0', '1', '0', '0', '0', '0', '0', '0', '0', '1', '1', '0', '0', '1', '0', '0', '1', '1'])) := by decide

/-- V-H. -/
theorem test_hex_lower_case :
    run (.hex 0x9ABCDEF0) = some (.text (chars ['0', 'x', '9', 'a', 'b', 'c', 'd', 'e', 'f', '0'])) := by decide

theorem test_hex_leading_zeros :
    run (.hex 0x00000001) = some (.text (chars ['0', 'x', '0', '0', '0', '0', '0', '0', '0', '1'])) := by decide

/-- S2. -/
theorem test_hexs :
    run (.hexs (chars ['1', '1', '0', '1', '1', '1', '1', '0', '1', '0', '1', '0', '1', '1', '0', '1', '1', '0',
      '1', '1', '1', '1', '1', '0', '1', '1', '1', '0', '1', '1', '1', '1'])) = some (.text (chars ['0', 'x', 'd',
      'e', 'a', 'd', 'b', 'e', 'e', 'f'])) := by decide

/-- V-H: 31 characters fail. R62, 93 U3: on other content of length 32 the model refuses. -/
theorem test_hexs_fails_and_refuses :
    run (.hexs (List.replicate 31 0x30)) = failure .format none .wordLength ∧
      exec (.hexs (List.replicate 32 0x32)) State.reset = .refused .hexsContent := ⟨by decide, rfl⟩

/-- V-T. -/
theorem test_resolve_folds_case :
    run (.resolve (chars ['s', 'B'])) = some (.format .SB) := by decide

theorem test_resolve_takes_no_b :
    run (.resolve (chars ['B'])) = failure .unsupportedFormat none .unknownTag := by decide

/-- S7, with the hex of 90_conflicts.md C1, and V-E: slots beyond U's arity are ignored. -/
theorem test_encode_succeeds :
    wordHex (.encode (req (chars ['I']) [(chars ['5']), (chars ['1', '0']), (chars ['0', '0', '0']), (chars ['3']),
      (chars ['0', '0', '1', '0', '0', '1', '1'])]))
      = some (0x00550193, (chars ['0', 'x', '0', '0', '5', '5', '0', '1', '9', '3'])) ∧
    wordHex (.encode (req (chars ['U']) [(chars ['1']), (chars ['1']), (chars ['0', '1', '1', '0', '1', '1', '1']),
      (chars ['j', 'u', 'n', 'k']), [], (chars ['-', '5'])]))
      = some (0x000010b7, (chars ['0', 'x', '0', '0', '0', '0', '1', '0', 'b', '7'])) := by decide

/-- V-E: a missing slot 3 beats a range fault in slot 0. P4 step 1: the codes on the error ports. -/
theorem test_encode_fails :
    run (.encode (req (chars ['I']) [(chars ['9', '9', '9', '9']), (chars ['1', '0']), (chars ['0', '0', '0']), [],
      (chars ['0', '0', '1', '0', '0', '1', '1'])])) = failure .missingField (some .rd) .emptyField ∧
    (run (.encode (req (chars ['I']) [(chars ['-', '1']), (chars ['1', '0']), (chars ['0', '0', '0']),
      (chars ['3']), (chars ['0', '0', '1', '0', '0', '1', '1'])]))).map
      (fun r => (r.okPort, r.errKindPort, r.errFieldPort, r.errReasonPort)) = some (0, 1, 7, 1) := by decide

/-! ## Witnesses: for every statement with hypotheses, a state and operands that meet them -/

theorem wit_StepRunsThePresentedOperation :
    decode (State.reset.present (.binval none [] 0)).ports = .binval none [] 0 ∧
    State.reset.bench.unit = .composed := ⟨rfl, rfl⟩

theorem wit_PresentedOperationsRun :
    (Instr.dec2bin none (.int 0) 1).wf = true ∧
    decodeTableWord 72 0x93015500000000000b = some (.hex 0x00550193) := ⟨rfl, rfl⟩

/-- One well-formed operation of each shape, an operand of 255 characters and a number above 255 among them. -/
theorem wit_DecodeOfEncodeIsTheOperation :
    (Instr.parseDec (List.replicate 255 0x30)).wf = true ∧ (Instr.binstr 0xffffffff).wf = true ∧
    (Instr.dec2bin (some .imm) (.int (-300)) 256).wf = true ∧
    (Instr.encode (req [0xff] [[], [0xff], [], [0]])).wf = true := ⟨rfl, rfl, rfl, rfl⟩

/-- A well-formed operation, and an ill-formed one of each reason. -/
theorem wit_DecodeBytesOfEncodeBytesIsTheOperation :
    (Instr.encI (chars ['5']) [] f000 [] op0010011).wf = true ∧
    (Instr.dec2bin none (.int 0) 0).wf = false ∧ (Instr.dec2bin (some .opcode) (.int 0) 7).wf = false ∧
    (Instr.binval (some .imm) [] 12).wf = false := by decide

theorem wit_DecodedOperationsAreWellFormed :
    decodeBytes (encodeBytes (.dec2bin (some .rd) (.int 31) 5)) = .ok (.dec2bin (some .rd) (.int 31) 5) := rfl

/-- The composed ENCODER driven; two states that carry one request and differ in all else; a step of a driven state. -/
theorem wit_ResponsePortsFollowTheRequestPorts :
    State.reset.bench.unit = .composed ∧
    ((State.reset.present (.hex 7)).sample (.integer 3)).request.request = State.reset.request.request ∧
    step State.reset = .next State.reset ∧
    ∃ t, step (State.reset.driveRequest (.ofRequest (req (chars ['U']) [chars ['1'], chars ['1'], op0110111])))
      = .next t := ⟨rfl, rfl, rfl, ⟨_, rfl⟩⟩

/-- Two presentations of one request that differ in their ignored characters. -/
theorem wit_EqualRequestsGetEqualResponses :
    resetRequest.request = req [] [] ∧ (RequestPorts.ofRequest (req [] [])).request = req [] [] ∧
    resetRequest ≠ RequestPorts.ofRequest (req [] []) := by decide

/-- Capacities that are exactly reached. -/
theorem wit_EveryRequestFitsPortsOfEnoughCapacity :
    (chars ['U', 'J']).length ≤ 2 ∧
    ∀ f ∈ slotStrings (req (chars ['U', 'J']) [chars ['8'], chars ['1'], op1101111]), f.length ≤ 7 := by decide

theorem wit_EveryStepSettlesTheResponse :
    step (State.reset.present (.hex 0)) = .next ((State.reset.present (.hex 0)).sample (.text (hex 0))) := rfl

theorem wit_EveryStepKeepsTheInvariant :
    (State.reset.present (.hex 0)).inv = true ∧
    step (State.reset.present (.hex 0)) = .next ((State.reset.present (.hex 0)).sample (.text (hex 0))) :=
  ⟨by decide, rfl⟩

theorem wit_OperationsChangeOnlyTheResponse :
    exec (.parseDec []) State.reset
      = .next (State.reset.sample (.failed ⟨.format, none, .badDecimalSyntax⟩)) := rfl

/-- A numeral ("-0") and a string that is none ("-"). -/
theorem wit_ParseDecAcceptsExactlyTheNumerals :
    (∃ ds : Str, (chars ['-', '0'] = ds ∨ chars ['-', '0'] = 0x2D :: ds) ∧ ds ≠ [] ∧
      ∀ c ∈ ds, 0x30 ≤ c.toNat ∧ c.toNat ≤ 0x39) ∧
    ¬ ∃ ds : Str, (chars ['-'] = ds ∨ chars ['-'] = 0x2D :: ds) ∧ ds ≠ [] ∧
      ∀ c ∈ ds, 0x30 ≤ c.toNat ∧ c.toNat ≤ 0x39 := by
  refine ⟨⟨chars ['0'], .inr rfl, by decide, by decide⟩, ?_⟩
  rintro ⟨ds, rfl | h, hne, hd⟩
  · revert hd; decide
  · exact hne (List.cons.inj h).2.symm

theorem wit_ParseDecValueIsThePositionalSum :
    chars ['0', '9'] ≠ [] ∧ ∀ c ∈ chars ['0', '9'], 0x30 ≤ c.toNat ∧ c.toNat ≤ 0x39 := by decide

/-- At width 5: no numeral, "-1", "32", "31", "0". -/
theorem wit_Dec2binOnAString :
    isDecimal (chars ['x', '5']) = false ∧ (Denotes (chars ['-', '1']) (-1) ∧ (-1 : Int) < 0) ∧
    (Denotes (chars ['3', '2']) 32 ∧ (2 : Int) ^ 5 ≤ 32) ∧
    (Denotes (chars ['3', '1']) 31 ∧ (0 : Int) ≤ 31 ∧ (31 : Int) < 2 ^ 5) ∧
    (Denotes (chars ['0']) 0 ∧ (0 : Int) ≤ 0 ∧ (0 : Int) < 2 ^ 5) := by
  unfold Denotes; decide

theorem wit_Dec2binIntegerFormAgrees :
    ((-1 : Int) < 0 ∧ (2 : Int) ^ 12 ≤ 4096 ∧ (0 : Int) ≤ 4095 ∧ (4095 : Int) < 2 ^ 12) ∧
    exec (.parseDec (chars ['4', '0', '9', '5'])) State.reset = .next (State.reset.sample (.integer 4095)) :=
  ⟨by decide, rfl⟩

/-- Width 5 at the end of its range, in both forms; a numeral of a value out of range. -/
theorem wit_Dec2binKeepsTheValue :
    exec (.dec2bin (some .rd) (.str (chars ['3', '1'])) 5) State.reset
      = .next (State.reset.sample (.bits 5 31)) ∧
    exec (.dec2bin (some .rd) (.int 31) 5) State.reset = .next (State.reset.sample (.bits 5 31)) ∧
    Denotes (chars ['3', '1']) 31 ∧ Denotes (chars ['3', '2']) 32 :=
  ⟨rfl, rfl, by unfold Denotes; decide, by unfold Denotes; decide⟩

/-- At width 12 a value below every pattern and "-1"; then `-1` is "4095", and `-2048`, the least, is "2048". -/
theorem wit_NegativeValuesAreSuppliedAsPatterns :
    ((-5000 : Int) < 0 ∧ (-1 : Int) < 0 ∧ Denotes (chars ['-', '1']) (-1)) ∧
    (0 < 12 ∧ 1 ≤ 1 ∧ 1 ≤ 2 ^ (12 - 1) ∧ Denotes (chars ['4', '0', '9', '5']) ((2 : Int) ^ 12 - (1 : Nat))) ∧
    (1 ≤ 2048 ∧ 2048 ≤ 2 ^ (12 - 1) ∧ Denotes (chars ['2', '0', '4', '8']) ((2 : Int) ^ 12 - (2048 : Nat))) := by
  unfold Denotes; decide

theorem wit_BinvalAcceptsExactlyTheWidth :
    IsBinary (chars ['1', '0', '1']) 3 ∧ ¬ IsBinary (chars ['1', '1']) 3 ∧
    ¬ IsBinary (chars ['0', '0', '2']) 3 := by
  unfold IsBinary; decide

theorem wit_HexReadsBackToTheWord :
    exec (.hex 0xdeadbeef) State.reset
      = .next (State.reset.sample (.text (chars ['0', 'x', 'd', 'e', 'a', 'd', 'b', 'e', 'e', 'f']))) := rfl

/-- Lengths 31 and 33; thirty-two ones; thirty-two characters, one of them '2'. -/
theorem wit_HexsChecksLengthAndRendersBinaryContent :
    (List.replicate 31 0x31 : Str).length ≠ 32 ∧ (List.replicate 33 0x31 : Str).length ≠ 32 ∧
    IsBinary (List.replicate 32 0x31) 32 ∧
    ((0x32 :: List.replicate 31 0x31 : Str).length = 32 ∧ ¬ IsBinary (0x32 :: List.replicate 31 0x31) 32) := by
  unfold IsBinary; decide

/-- Registers 0 and 31. -/
theorem wit_EncRPlacesEveryField :
    Denotes (chars ['0']) (0#5).toNat ∧ Denotes (chars ['3', '1']) (31#5).toNat := by
  unfold Denotes; decide

theorem wit_EncIPlacesEveryField :
    Denotes (chars ['4', '0', '9', '5']) (4095#12).toNat ∧ Denotes (chars ['0']) (0#12).toNat ∧
    Denotes (chars ['3', '1']) (31#5).toNat := by
  unfold Denotes; decide

theorem wit_EncSPlacesEveryField :
    Denotes (chars ['3', '2']) (32#12).toNat ∧ Denotes (chars ['3', '1']) (31#5).toNat := by
  unfold Denotes; decide

theorem wit_EncSBPlacesEveryField :
    Denotes (chars ['8', '1', '9', '1']) (8191#13).toNat ∧ Denotes (chars ['0']) (0#5).toNat := by
  unfold Denotes; decide

theorem wit_EncUPlacesEveryField :
    Denotes (chars ['1', '0', '4', '8', '5', '7', '5']) (1048575#20).toNat ∧
    Denotes (chars ['5']) (5#5).toNat := by
  unfold Denotes; decide

theorem wit_EncUJPlacesEveryField :
    Denotes (chars ['2', '0', '9', '7', '1', '5', '1']) (2097151#21).toNat ∧
    Denotes (chars ['3']) (3#5).toNat := by
  unfold Denotes; decide

/-- The last accepted pair and the first refused one, of each of the two formats, and valid other slots. -/
theorem wit_BitZeroOfBranchAndJumpImmediatesIsDropped :
    (Denotes (chars ['8', '1', '9', '0']) (2 * 4095 : Nat) ∧
      Denotes (chars ['8', '1', '9', '1']) (2 * 4095 + 1 : Nat) ∧ 4095 < 4096) ∧
    (Denotes (chars ['8', '1', '9', '2']) (2 * 4096 : Nat) ∧
      Denotes (chars ['8', '1', '9', '3']) (2 * 4096 + 1 : Nat) ∧ 4096 ≤ 4096) ∧
    (Denotes (chars ['2', '0', '9', '7', '1', '5', '0']) (2 * 1048575 : Nat) ∧
      Denotes (chars ['2', '0', '9', '7', '1', '5', '1']) (2 * 1048575 + 1 : Nat) ∧ 1048575 < 1048576) ∧
    (Denotes (chars ['2', '0', '9', '7', '1', '5', '2']) (2 * 1048576 : Nat) ∧
      Denotes (chars ['2', '0', '9', '7', '1', '5', '3']) (2 * 1048576 + 1 : Nat) ∧ 1048576 ≤ 1048576) ∧
    slotFault ⟨.rs2, .dec 5⟩ (chars ['3', '1']) = none ∧ slotFault ⟨.rs1, .dec 5⟩ (chars ['0']) = none ∧
    slotFault ⟨.rd, .dec 5⟩ (chars ['1']) = none ∧ IsBinary f000 3 ∧ IsBinary op1100011 7 := by
  unfold Denotes IsBinary; decide

/-- SB with "8" and with "9", as in S6. -/
theorem wit_TheWordDeterminesEveryField :
    exec (assemblerOf .SB (req [] [chars ['8'], chars ['2'], chars ['1'], f000, op1100011])) State.reset
      = .next (State.reset.sample (.word 0x00208463)) ∧
    exec (assemblerOf .SB (req [] [chars ['9'], chars ['0', '2'], chars ['1'], f000, op1100011])) State.reset
      = .next (State.reset.sample (.word 0x00208463)) ∧
    (slotTable .SB)[0]? = some ⟨.imm, .dec 13⟩ ∧
    (slotStrings (req [] [chars ['8'], chars ['2'], chars ['1'], f000, op1100011]))[0]? = some (chars ['8']) ∧
    (slotStrings (req [] [chars ['9'], chars ['0', '2'], chars ['1'], f000, op1100011]))[0]?
      = some (chars ['9']) := ⟨rfl, rfl, rfl, rfl, rfl⟩

/-- Upper bits 0100000 and amount 3 are "1027" (V-I); the largest are 127 and 31, "4095". -/
theorem wit_ShiftImmediatesThroughEitherFormat :
    (3 < 32 ∧ Denotes (chars ['3']) (3 : Nat) ∧
      Denotes (chars ['1', '0', '2', '7']) (32 * (0b0100000#7).toNat + 3 : Nat)) ∧
    (31 < 32 ∧ Denotes (chars ['3', '1']) (31 : Nat) ∧
      Denotes (chars ['4', '0', '9', '5']) (32 * (0b1111111#7).toNat + 31 : Nat)) := by
  unfold Denotes; decide

theorem wit_AssemblersReportTheFirstFault :
    firstFault .I (req [] [chars ['5'], chars ['3', '2'], f000, chars ['4', '0'], op0010011])
      = some ⟨.range, some .rs1, .tooWide⟩ ∧
    firstFault .I (req [] [chars ['5'], chars ['3', '1'], f000, chars ['3'], op0010011]) = none := by decide

theorem wit_ResolveAcceptsExactlySixteenTags :
    (chars ['u', 'J'], Format.UJ) ∈ acceptedTags ∧
    (∀ fmt, (chars ['J'], fmt) ∉ acceptedTags) ∧ ∀ fmt, (([] : Str), fmt) ∉ acceptedTags := by
  refine ⟨by decide, ?_, ?_⟩ <;> intro fmt <;> cases fmt <;> decide

theorem wit_EncodeRendersTheAssembledWord :
    (chars ['r'], Format.R) ∈ acceptedTags ∧
    exec (assemblerOf .R (req (chars ['r'])
        [chars ['0', '0', '0', '0', '0', '0', '0'], chars ['2'], chars ['1'], f000, chars ['3'], op0110011]))
      State.reset = .next (State.reset.sample (.word 0x002081b3)) := ⟨by decide, rfl⟩

/-- Of the four outcomes: a tag that is unknown; the last slot below the arity empty and no earlier one; all present
and one faulty; all present and valid. -/
theorem wit_EncodeFollowsTheErrorPriority :
    (∀ fmt, ((req (chars ['Q']) []).tag, fmt) ∉ acceptedTags) ∧
    ((chars ['U'], Format.U) ∈ acceptedTags ∧ (slotTable .U)[2]? = some ⟨.opcode, .bin 7⟩ ∧
      (slotStrings (req (chars ['U']) [chars ['x'], chars ['1']]))[2]? = some [] ∧
      ∀ j, j < 2 → (slotStrings (req (chars ['U']) [chars ['x'], chars ['1']]))[j]? ≠ some []) ∧
    ((∀ i, i < arity .U →
        (slotStrings (req (chars ['U']) [chars ['1'], chars ['3', '2'], op0110111]))[i]? ≠ some []) ∧
      firstFault .U (req (chars ['U']) [chars ['1'], chars ['3', '2'], op0110111])
        = some ⟨.range, some .rd, .tooWide⟩) ∧
    ((∀ i, i < arity .U →
        (slotStrings (req (chars ['U']) [chars ['1'], chars ['3', '1'], op0110111]))[i]? ≠ some []) ∧
      firstFault .U (req (chars ['U']) [chars ['1'], chars ['3', '1'], op0110111]) = none) := by
  refine ⟨?_, by decide, by decide, by decide⟩
  intro fmt
  cases fmt <;> decide

/-- The request with slots beyond the arity and the one without them. -/
theorem wit_SlotsBeyondTheArityNeverMatter :
    (chars ['U'], Format.U) ∈ acceptedTags ∧
    ∀ i, i < arity .U →
      (slotStrings (req (chars ['U']) [chars ['1'], chars ['1'], op0110111, chars ['j'], [], chars ['-', '5']]))[i]?
        = (slotStrings (req (chars ['U']) [chars ['1'], chars ['1'], op0110111]))[i]? := by decide

/-- A success and a failure, on the response ports and as ENCODE gives them. -/
theorem wit_ResponsePortsOfEncode :
    (∃ s : State, s.response = .encoded 0x00001097 (binstr 0x00001097) (hex 0x00001097)) ∧
    (∃ s : State, s.response = .failed ⟨.unsupportedFormat, none, .unknownTag⟩) ∧
    (∃ (q : Request) (s t : State), exec (.encode q) s = .next t ∧
      t.sampled = .encoded 0x00001097 (binstr 0x00001097) (hex 0x00001097)) ∧
    ∃ (q : Request) (s t : State), exec (.encode q) s = .next t ∧
      t.sampled = .failed ⟨.unsupportedFormat, none, .unknownTag⟩ :=
  ⟨⟨State.reset.driveRequest (.ofRequest (req (chars ['U']) [chars ['1'], chars ['1'], op0010111])), rfl⟩,
    ⟨State.reset, rfl⟩,
    ⟨req (chars ['U']) [chars ['1'], chars ['1'], op0010111], State.reset, _, rfl, rfl⟩,
    ⟨req (chars ['Q']) [], State.reset, _, rfl, rfl⟩⟩

theorem wit_EveryWordIsTheOutputOfSomeRequest :
    (chars ['S', 'b'], Format.SB) ∈ acceptedTags := by decide

/-- A triple of R70's table and one that is none. -/
theorem wit_EncodeProducesExactlyTheListedErrors :
    EncodeError.listed ⟨.range, some .imm, .tooWide⟩ = true ∧
    EncodeError.listed ⟨.format, none, .wordLength⟩ = false := by decide

end Sys2Proof.Tests
end

section
/-! The request's path to a response: what the composed ENCODER does once its request ports are driven. -/

namespace Sys2Proof.Machine

/-- What a driven ENCODER presents is ENCODE on the strings that the request ports carry; their ignored characters and
capacities are gone (R8, R14). -/
@[simp] theorem decode_driveRequest_ports (s : State) (p : RequestPorts) :
    decode (s.driveRequest p).ports = .encode p.request := rfl

/-- A step of a driven ENCODER reads the answer to the request that its ports carry, and changes nothing else (R66). -/
theorem step_driveRequest (s : State) (p : RequestPorts) :
    step (s.driveRequest p) = .next ((s.driveRequest p).sample (encodeRequest p.request).response) := by
  rw [step, decode_driveRequest_ports, exec_encode]

/-- Settles O7: the one response is ENCODE's result on the request, in which neither the state before nor the ignored
characters occur. -/
theorem equalRequestsGetEqualResponses : Obligations.EqualRequestsGetEqualResponses := by
  intro q
  refine ⟨(encodeRequest q).response, fun p s hp => ?_⟩
  rw [step_driveRequest, hp]

end Sys2Proof.Machine
end

section
/-! Assemblers on valid slots: the word they complete with, and the place of each field in it (30_encoding.md). -/

namespace Sys2Proof.Machine

/-! ## An assembler that succeeds -/

/-- An assembler on its own completes with the word it gives inside ENCODE. -/
theorem exec_assemblerOf_of_ok {fmt : Format} {q : Request} {w : Word} (h : assemble fmt q = .ok w) (s : State) :
    exec (assemblerOf fmt q) s = .next (s.sample (.word w)) := by
  rw [exec_assemblerOf, h]
  rfl

/-- ENC.R on numerals and renderings of its fields completes with layout R of them (R51). -/
theorem exec_encR_of_denotes (funct7 : BitVec 7) {rs2 rs1 : BitVec 5} (funct3 : BitVec 3) {rd : BitVec 5}
    (opcode : BitVec 7) {rs2S rs1S rdS : Str} (s : State)
    (hrs2 : Denotes rs2S rs2.toNat) (hrs1 : Denotes rs1S rs1.toNat) (hrd : Denotes rdS rd.toNat) :
    exec (.encR (bitString funct7) rs2S rs1S (bitString funct3) rdS (bitString opcode)) s
      = .next (s.sample (.word (packR funct7 rs2 rs1 funct3 rd opcode))) := by
  refine exec_assemblerOf_of_ok (fmt := .R)
    (q := ⟨[], bitString funct7, rs2S, rs1S, bitString funct3, rdS, bitString opcode⟩) ?_ s
  simp [assemble, assembleR, binval_bitString, dec2bin_of_denotes _ hrs2, dec2bin_of_denotes _ hrs1,
    dec2bin_of_denotes _ hrd]

/-- ENC.I on numerals and renderings of its fields completes with layout I of them (R52). -/
theorem exec_encI_of_denotes {imm : BitVec 12} {rs1 : BitVec 5} (funct3 : BitVec 3) {rd : BitVec 5}
    (opcode : BitVec 7) {immS rs1S rdS : Str} (s : State)
    (himm : Denotes immS imm.toNat) (hrs1 : Denotes rs1S rs1.toNat) (hrd : Denotes rdS rd.toNat) :
    exec (.encI immS rs1S (bitString funct3) rdS (bitString opcode)) s
      = .next (s.sample (.word (packI imm rs1 funct3 rd opcode))) := by
  refine exec_assemblerOf_of_ok (fmt := .I)
    (q := ⟨[], immS, rs1S, bitString funct3, rdS, bitString opcode, []⟩) ?_ s
  simp [assemble, assembleI, binval_bitString, dec2bin_of_denotes _ himm, dec2bin_of_denotes _ hrs1,
    dec2bin_of_denotes _ hrd]

/-- ENC.S on numerals and renderings of its fields completes with layout S of them (R53). -/
theorem exec_encS_of_denotes {imm : BitVec 12} {rs2 rs1 : BitVec 5} (funct3 : BitVec 3) (opcode : BitVec 7)
    {immS rs2S rs1S : Str} (s : State)
    (himm : Denotes immS imm.toNat) (hrs2 : Denotes rs2S rs2.toNat) (hrs1 : Denotes rs1S rs1.toNat) :
    exec (.encS immS rs2S rs1S (bitString funct3) (bitString opcode)) s
      = .next (s.sample (.word (packS imm rs2 rs1 funct3 opcode))) := by
  refine exec_assemblerOf_of_ok (fmt := .S)
    (q := ⟨[], immS, rs2S, rs1S, bitString funct3, bitString opcode, []⟩) ?_ s
  simp [assemble, assembleS, binval_bitString, dec2bin_of_denotes _ himm, dec2bin_of_denotes _ hrs2,
    dec2bin_of_denotes _ hrs1]

/-! ## Layouts R and I by bit ranges and by characters (layout S is layout R of the immediate's halves) -/

/-- A bit range of a vector as arithmetic on its value: shift the range down, cut off what is above it. -/
theorem extractLsb_eq_iff_toNat {n hi lo : Nat} {x : BitVec n} {v : BitVec (hi - lo + 1)} :
    x.extractLsb hi lo = v ↔ x.toNat / 2 ^ lo % 2 ^ (hi - lo + 1) = v.toNat := by
  rw [← BitVec.toNat_inj, BitVec.extractLsb_toNat, Nat.shiftRight_eq_div_pow]

/-- R27 by bit ranges. -/
theorem packR_extractLsb (funct7 : BitVec 7) (rs2 rs1 : BitVec 5) (funct3 : BitVec 3) (rd : BitVec 5)
    (opcode : BitVec 7) :
    (packR funct7 rs2 rs1 funct3 rd opcode).extractLsb 31 25 = funct7 ∧
    (packR funct7 rs2 rs1 funct3 rd opcode).extractLsb 24 20 = rs2 ∧
    (packR funct7 rs2 rs1 funct3 rd opcode).extractLsb 19 15 = rs1 ∧
    (packR funct7 rs2 rs1 funct3 rd opcode).extractLsb 14 12 = funct3 ∧
    (packR funct7 rs2 rs1 funct3 rd opcode).extractLsb 11 7 = rd ∧
    (packR funct7 rs2 rs1 funct3 rd opcode).extractLsb 6 0 = opcode := by
  simp only [extractLsb_eq_iff_toNat, packR_toNat]
  refine ⟨?_, ?_, ?_, ?_, ?_, ?_⟩ <;> omega

/-- R28 by bit ranges. -/
theorem packI_extractLsb (imm : BitVec 12) (rs1 : BitVec 5) (funct3 : BitVec 3) (rd : BitVec 5)
    (opcode : BitVec 7) :
    (packI imm rs1 funct3 rd opcode).extractLsb 31 20 = imm ∧
    (packI imm rs1 funct3 rd opcode).extractLsb 19 15 = rs1 ∧
    (packI imm rs1 funct3 rd opcode).extractLsb 14 12 = funct3 ∧
    (packI imm rs1 funct3 rd opcode).extractLsb 11 7 = rd ∧
    (packI imm rs1 funct3 rd opcode).extractLsb 6 0 = opcode := by
  simp only [extractLsb_eq_iff_toNat, packI_toNat]
  refine ⟨?_, ?_, ?_, ?_, ?_⟩ <;> omega

/-- R27 by characters. -/
theorem bitString_packR (funct7 : BitVec 7) (rs2 rs1 : BitVec 5) (funct3 : BitVec 3) (rd : BitVec 5)
    (opcode : BitVec 7) :
    bitString (packR funct7 rs2 rs1 funct3 rd opcode)
      = bitString funct7 ++ bitString rs2 ++ bitString rs1 ++ bitString funct3 ++ bitString rd
        ++ bitString opcode := by
  simp only [← bitString_append]
  rfl

/-- R28 by characters. -/
theorem bitString_packI (imm : BitVec 12) (rs1 : BitVec 5) (funct3 : BitVec 3) (rd : BitVec 5)
    (opcode : BitVec 7) :
    bitString (packI imm rs1 funct3 rd opcode)
      = bitString imm ++ bitString rs1 ++ bitString funct3 ++ bitString rd ++ bitString opcode := by
  simp only [← bitString_append]
  rfl

/-! ## The obligations -/

/-- Settles O27: the word is layout R of the fields. -/
theorem encRPlacesEveryField : Obligations.EncRPlacesEveryField := by
  intro funct7 rs2 rs1 funct3 rd opcode rs2S rs1S rdS s hrs2 hrs1 hrd
  obtain ⟨hf7, h2, h1, hf3, hd, hop⟩ := packR_extractLsb funct7 rs2 rs1 funct3 rd opcode
  exact ⟨_, exec_encR_of_denotes funct7 funct3 opcode s hrs2 hrs1 hrd, hf7, h2, h1, hf3, hd, hop,
    bitString_packR ..⟩

/-- Settles O28: the word is layout I of the fields. -/
theorem encIPlacesEveryField : Obligations.EncIPlacesEveryField := by
  intro imm rs1 funct3 rd opcode immS rs1S rdS s himm hrs1 hrd
  obtain ⟨hi, h1, hf3, hd, hop⟩ := packI_extractLsb imm rs1 funct3 rd opcode
  exact ⟨_, exec_encI_of_denotes funct3 opcode s himm hrs1 hrd, hi, h1, hf3, hd, hop, bitString_packI ..⟩

/-- Settles O29: the word is layout S of the fields, which is layout R with the immediate's high seven bits in the
place of `funct7` and its low five in the place of `rd`. -/
theorem encSPlacesEveryField : Obligations.EncSPlacesEveryField := by
  intro imm rs2 rs1 funct3 opcode immS rs2S rs1S s himm hrs2 hrs1
  have hexec := exec_encS_of_denotes funct3 opcode s himm hrs2 hrs1
  rw [packS_eq] at hexec
  obtain ⟨hhi, h2, h1, hf3, hlo, hop⟩ :=
    packR_extractLsb (imm.extractLsb 11 5) rs2 rs1 funct3 (imm.extractLsb 4 0) opcode
  exact ⟨_, hexec, hhi, h2, h1, hf3, hlo, hop, bitString_packR ..⟩

end Sys2Proof.Machine
end

section
/-! DEC2BIN on an integer, and on a numeral of it (40_field_primitives.md R42, R47). -/

namespace Sys2Proof.Machine

/-! ## The three outcomes on an integer, in R42's order of detection -/

theorem dec2binInt_of_neg (field : Option FieldName) {v : Int} (w : Nat) (h : v < 0) :
    dec2binInt field v w = .error ⟨.range, field, .negative⟩ := if_pos h

theorem dec2binInt_of_tooWide (field : Option FieldName) {v : Int} {w : Nat} (h : 2 ^ w ≤ v) :
    dec2binInt field v w = .error ⟨.range, field, .tooWide⟩ := by
  have hnonneg : ¬ v < 0 := not_lt.2 (le_trans (by positivity) h)
  rw [dec2binInt, if_neg hnonneg, if_pos h]
  rfl

theorem dec2binInt_toNat (field : Option FieldName) {w : Nat} (b : BitVec w) :
    dec2binInt field b.toNat w = .ok b :=
  dec2binInt_eq_ok.2 ⟨by omega, by exact_mod_cast b.isLt, by simp⟩

/-- A value in range is that of a vector. -/
theorem exists_toNat_eq {v : Int} {w : Nat} (h0 : 0 ≤ v) (hw : v < 2 ^ w) : ∃ b : BitVec w, (b.toNat : Int) = v := by
  lift v to Nat using h0
  exact ⟨.ofNatLT v (by exact_mod_cast hw), by simp⟩

/-! ## A numeral and its value -/

/-- The string form is the integer form once PARSE_DEC has given a value (R42, R47). -/
theorem dec2bin_eq_dec2binInt (field : Option FieldName) {str : Str} {v : Int} (w : Nat) (h : Denotes str v) :
    dec2bin field str w = dec2binInt field v w := by
  obtain ⟨hdecimal, rfl⟩ := h
  simp [dec2bin, parseDec, hdecimal]

/-! ## The operations -/

theorem exec_dec2bin (label : Option FieldName) (value : DecOperand) (w : Nat) (s : State) :
    exec (.dec2bin label value w) s = deliver (do return .bits w (← dec2binOperand label value w)) s := rfl

theorem exec_dec2bin_of_ok {label : Option FieldName} {value : DecOperand} {w : Nat} {b : BitVec w}
    (h : dec2binOperand label value w = .ok b) (s : State) :
    exec (.dec2bin label value w) s = .next (s.sample (.bits w b)) := by
  rw [exec_dec2bin, h]
  rfl

theorem exec_dec2bin_of_error {label : Option FieldName} {value : DecOperand} {w : Nat} {e : EncodeError}
    (h : dec2binOperand label value w = .error e) (s : State) :
    exec (.dec2bin label value w) s = .next (s.sample (.failed e)) := by
  rw [exec_dec2bin, h]
  rfl

theorem exec_dec2bin_str_eq_int (label : Option FieldName) {str : Str} {v : Int} (w : Nat) (s : State)
    (h : Denotes str v) : exec (.dec2bin label (.str str) w) s = exec (.dec2bin label (.int v) w) s := by
  simp only [exec_dec2bin, dec2binOperand, dec2bin_eq_dec2binInt label w h]

theorem exec_parseDec_of_denotes {str : Str} {v : Int} (s : State) (h : Denotes str v) :
    exec (.parseDec str) s = .next (s.sample (.integer v)) := by
  obtain ⟨hdecimal, rfl⟩ := h
  simp [exec, execParseDec, parseDec, hdecimal]

theorem exec_parseDec_of_not_isDecimal {str : Str} (s : State) (h : isDecimal str = false) :
    exec (.parseDec str) s = .next (s.sample (.failed ⟨.format, none, .badDecimalSyntax⟩)) := by
  simp [exec, execParseDec, parseDec, fail, h]

/-- PARSE_DEC gives the value `v` exactly on the numerals of `v` (R40, R41). -/
theorem exec_parseDec_eq_integer_iff {str : Str} {v : Int} {s : State} :
    exec (.parseDec str) s = .next (s.sample (.integer v)) ↔ Denotes str v := by
  refine ⟨fun h => ?_, exec_parseDec_of_denotes s⟩
  cases hdecimal : isDecimal str with
  | false =>
    rw [exec_parseDec_of_not_isDecimal s hdecimal] at h
    simp [State.sample] at h
  | true =>
    rw [exec_parseDec_of_denotes s ⟨hdecimal, rfl⟩] at h
    exact ⟨hdecimal, by simpa [State.sample] using h⟩

/-! ## The obligation -/

/-- Settles O19: the integer form by the sign and the bound, the string form by the numeral it then is. -/
theorem dec2binIntegerFormAgrees : Obligations.Dec2binIntegerFormAgrees := by
  intro label v w s
  refine ⟨fun hneg => ?_, fun hwide => ?_, fun h0 hw => ?_, fun str hparse => ?_⟩
  · exact exec_dec2bin_of_error (value := .int v) (dec2binInt_of_neg label w hneg) s
  · exact exec_dec2bin_of_error (value := .int v) (dec2binInt_of_tooWide label hwide) s
  · obtain ⟨b, rfl⟩ := exists_toNat_eq h0 hw
    exact ⟨b, rfl, exec_dec2bin_of_ok (value := .int b.toNat) (dec2binInt_toNat label b) s⟩
  · exact exec_dec2bin_str_eq_int label w s (exec_parseDec_eq_integer_iff.1 hparse)

end Sys2Proof.Machine
end

section
/-! The Hex Word as a base-sixteen numeral (42_hex_renderer.md R61, R63, R64). -/

namespace Sys2Proof.Machine

/-- The value of a lowercase hex digit (R64): `'0'` to `'9'`, then `'a'` to `'f'`. -/
def hexDigitValue (c : Code) : Nat := if c.toNat ≤ 0x39 then c.toNat - 0x30 else c.toNat - 0x61 + 10

/-- R63's reading of a Hex Word: characters 2 to 9 as a base-sixteen numeral, most significant digit first. -/
def readHex (t : Str) : Nat := ∑ j ∈ Finset.range 8, hexDigitValue (t.getD (2 + j) 0) * 16 ^ (7 - j)

@[simp] theorem hexDigitValue_hexDigit (n : BitVec 4) : hexDigitValue (hexDigit n) = n.toNat := by
  revert n
  decide

/-- After `0x`, the characters of a Hex Word are the digits of the word's nibbles. -/
theorem hex_getD (w : Word) {j : Nat} (hj : j < 8) : (hex w).getD (2 + j) 0 = hexDigit (nibble w j) := by
  interval_cases j <;> rfl

/-- The `d` lowest base-sixteen digits of a number, most significant first, sum to the number modulo `16 ^ d`. -/
theorem sum_hexadecimal_digits (n d : Nat) :
    ∑ j ∈ Finset.range d, n / 16 ^ (d - 1 - j) % 16 * 16 ^ (d - 1 - j) = n % 16 ^ d := by
  rw [Finset.sum_range_reflect (fun k => n / 16 ^ k % 16 * 16 ^ k)]
  induction d with
  | zero => simp [Nat.mod_one]
  | succ d ih => rw [Finset.sum_range_succ, ih, Nat.mod_pow_succ, Nat.mul_comm]

/-- R63: a Hex Word reads as the unsigned value of its word. -/
@[simp] theorem readHex_hex (w : Word) : readHex (hex w) = w.toNat := by
  calc readHex (hex w)
      = ∑ j ∈ Finset.range 8, w.toNat / 16 ^ (7 - j) % 16 * 16 ^ (7 - j) :=
        Finset.sum_congr rfl fun j hj => by
          have hlt : j < 8 := Finset.mem_range.1 hj
          rw [hex_getD w hlt, hexDigitValue_hexDigit, nibble_toNat w j hlt]
    _ = w.toNat % 16 ^ 8 := sum_hexadecimal_digits w.toNat 8
    _ = w.toNat := Nat.mod_eq_of_lt w.isLt

/-- Different words have different Hex Words, since each reads back as its own word. -/
theorem hex_injective : Function.Injective hex := fun w w' h =>
  BitVec.eq_of_toNat_eq (by rw [← readHex_hex w, h, readHex_hex])

/-- HEX gives the text `t` exactly on the words whose Hex Word it is (R61). -/
theorem exec_hex_eq_text_iff {w : Word} {t : Str} {s : State} :
    exec (.hex w) s = .next (s.sample (.text t)) ↔ hex w = t := by
  have hexec : exec (.hex w) s = .next (s.sample (.text (hex w))) := rfl
  rw [hexec]
  simp [State.sample]

/-- Settles O25: the Hex Word reads back as the word's value, and so determines the word. -/
theorem hexReadsBackToTheWord : Obligations.HexReadsBackToTheWord := by
  intro word s
  have hread : readHex (hex word) = word.toNat := readHex_hex word
  have hvector : BitVec.ofNat 32 (readHex (hex word)) = word := by
    rw [hread, BitVec.ofNat_toNat, BitVec.setWidth_eq]
  exact ⟨hex word, exec_hex_eq_text_iff.2 rfl, hread.symm, hvector,
    fun _ h => hex_injective (exec_hex_eq_text_iff.1 h)⟩

end Sys2Proof.Machine
end

section
/-! DISPATCH: what ENCODE answers (43_dispatcher.md). -/

namespace Sys2Proof.Machine

/-- Settles O39: ENCODE reads its result as a response, and that result is a rendered word or an error (R66, R69). -/
theorem encodeAlwaysAnswers : Obligations.EncodeAlwaysAnswers := by
  intro q s
  rw [exec_encode]
  obtain ⟨w, hsuccess⟩ | ⟨e, hfailure⟩ := encodeRequest_cases q
  · left
    exact ⟨w, binstr w, hex w, by rw [hsuccess, Result.response_ok]⟩
  · right
    exact ⟨e, by rw [hfailure, Result.response_error]⟩

end Sys2Proof.Machine
end

section
/-! The decoder on what the encoder writes: on the ports, and on byte frames (10_state.md section 3, log entries 2
and 3). -/

namespace Sys2Proof

/-! ## Well-formedness, and the labels and widths the decoder lets through -/

theorem wf_dec2bin_iff {label : Option FieldName} {value : DecOperand} {w : Nat} :
    (Instr.dec2bin label value w).wf = true ↔ decimalLabel label = true ∧ 0 < w := by
  simp [Instr.wf]

theorem wf_binval_iff {label : Option FieldName} {str : Str} {w : Nat} :
    (Instr.binval label str w).wf = true ↔ binaryLabel label = true := Iff.rfl

/-- DEC2BIN's lanes decode exactly to a DEC2BIN with a decimal label and a positive width (R42, R46). -/
theorem decodeDec2bin_eq_ok {f : Frame} {i : Instr} :
    f.decodeDec2bin = .ok i ↔ ∃ label value, decodeLabel f.label = .ok label ∧ decimalLabel label = true ∧
      0 < f.width ∧ decodeOperand f.form f.mag f.request.slot0 = .ok value ∧ i = .dec2bin label value f.width := by
  simp only [Frame.decodeDec2bin, except_bind_eq_ok, pure, Except.pure, Except.ok.injEq]
  constructor
  · rintro ⟨label, hlabel, ⟨⟩, hdecimal, ⟨⟩, hwidth, value, hvalue, rfl⟩
    exact ⟨label, value, hlabel, checkDecimalLabel_eq_ok.1 hdecimal, checkWidth_eq_ok.1 hwidth, hvalue, rfl⟩
  · rintro ⟨label, value, hlabel, hdecimal, hwidth, hvalue, rfl⟩
    exact ⟨label, hlabel, (), checkDecimalLabel_eq_ok.2 hdecimal, (), checkWidth_eq_ok.2 hwidth, value, hvalue, rfl⟩

/-- BINVAL's lanes decode exactly to a BINVAL with a binary-string label (R46). -/
theorem decodeBinval_eq_ok {f : Frame} {i : Instr} :
    f.decodeBinval = .ok i ↔ ∃ label, decodeLabel f.label = .ok label ∧ binaryLabel label = true ∧
      i = .binval label f.request.slot0 f.width := by
  simp only [Frame.decodeBinval, except_bind_eq_ok, pure, Except.pure, Except.ok.injEq]
  constructor
  · rintro ⟨label, hlabel, ⟨⟩, hbinary, rfl⟩
    exact ⟨label, hlabel, checkBinaryLabel_eq_ok.1 hbinary, rfl⟩
  · rintro ⟨label, hlabel, hbinary, rfl⟩
    exact ⟨label, hlabel, (), checkBinaryLabel_eq_ok.2 hbinary, rfl⟩

/-! ## Ports -/

@[simp] theorem request_ofRequest (q : Request) : (RequestPorts.ofRequest q).request = q := rfl

theorem decode_encode {i : Instr} (h : i.wf = true) : decode (encode i) = i := by
  cases i with
  | dec2bin label value w =>
    obtain ⟨hlabel, hw⟩ := wf_dec2bin_iff.1 h
    have hwidth : w - 1 + 1 = w := Nat.sub_add_cancel hw
    simp [decode, encode, Request.ofFields, map_name_bind_decimal? hlabel, decOperand_int?_slot, hwidth]
  | binval label str w =>
    simp [decode, encode, Request.ofFields, map_name_bind_binary? (wf_binval_iff.1 h)]
  | _ => rfl

theorem wf_decode (p : Ports) : (decode p).wf = true := by
  obtain ⟨⟨unit, _, _, _, _, _, _⟩, _⟩ := p
  cases unit with
  | dec2bin => exact wf_dec2bin_iff.2 ⟨decimalLabel_map_name _, Nat.succ_pos _⟩
  | binval => exact wf_binval_iff.2 (binaryLabel_map_name _)
  | _ => rfl

/-! ## Byte frames -/

theorem decodeBytes_encodeBytes (i : Instr) : decodeBytes (encodeBytes i) = (Frame.encode i).decode := by
  rw [decodeBytes, encodeBytes, Frame.ofBytes_toBytes]

/-- The frame of any operation decodes exactly to that operation, and only if it is well-formed. -/
theorem frame_decode_encode_eq_ok {i j : Instr} : (Frame.encode i).decode = .ok j ↔ i.wf = true ∧ j = i := by
  cases i with
  | dec2bin label value w =>
    change (Frame.encode (.dec2bin label value w)).decodeDec2bin = _ ↔ _
    have hvalue : decodeOperand (encodeOperand value).1 (encodeOperand value).2 value.slot = .ok value :=
      decodeOperand_encodeOperand value
    simp [decodeDec2bin_eq_ok, wf_dec2bin_iff, Frame.encode, Frame.ofSlots, Request.ofFields,
      decodeLabel_encodeLabel, hvalue, and_assoc]
  | binval label str w =>
    change (Frame.encode (.binval label str w)).decodeBinval = _ ↔ _
    simp [decodeBinval_eq_ok, wf_binval_iff, Frame.encode, Frame.ofSlots, Request.ofFields, decodeLabel_encodeLabel]
  | _ => exact ⟨fun h => ⟨rfl, (Except.ok.inj h).symm⟩, fun h => congrArg Except.ok h.2.symm⟩

/-- Whatever a frame holds, the operation read from it is well-formed. -/
theorem wf_of_frame_decode {f : Frame} {i : Instr} (h : f.decode = .ok i) : i.wf = true := by
  unfold Frame.decode at h
  split at h
  case h_9 =>
    obtain ⟨label, value, -, hlabel, hwidth, -, rfl⟩ := decodeDec2bin_eq_ok.1 h
    exact wf_dec2bin_iff.2 ⟨hlabel, hwidth⟩
  case h_10 =>
    obtain ⟨label, -, hlabel, rfl⟩ := decodeBinval_eq_ok.1 h
    exact wf_binval_iff.2 hlabel
  case h_15 => cases h
  all_goals cases h; rfl

theorem decodeTableWord_eq_some {nbits w : Nat} {i : Instr} :
    decodeTableWord nbits w = some i ↔ decodeBytes (frameBytes nbits w) = .ok i := by
  unfold decodeTableWord
  cases decodeBytes (frameBytes nbits w) <;> simp

theorem wf_of_decodeTableWord {nbits w : Nat} {i : Instr} (h : decodeTableWord nbits w = some i) : i.wf = true :=
  wf_of_frame_decode (decodeTableWord_eq_some.1 h)

/-! ## Capacities -/

/-- A port of capacity `n` that carries `s`, the characters beyond it of code 0. -/
def CharPort.padded (n : Nat) (s : Str) : CharPort := { str := s, ignored := List.replicate (n - s.length) 0 }

theorem CharPort.padded_chr_length {n : Nat} {s : Str} (h : s.length ≤ n) : (CharPort.padded n s).chr.length = n := by
  simp [CharPort.padded, CharPort.chr, h]

/-- Request ports of the two capacities that carry `q`. -/
def RequestPorts.padded (tagMaxLen fieldMaxLen : Nat) (q : Request) : RequestPorts :=
  { tag := .padded tagMaxLen q.tag, fld0 := .padded fieldMaxLen q.slot0, fld1 := .padded fieldMaxLen q.slot1,
    fld2 := .padded fieldMaxLen q.slot2, fld3 := .padded fieldMaxLen q.slot3, fld4 := .padded fieldMaxLen q.slot4,
    fld5 := .padded fieldMaxLen q.slot5 }

/-! ## The obligations -/

/-- Settles O4: a frame's lanes survive the bytes, and the lanes of an operation decode to it exactly if it is
well-formed. -/
theorem decodeBytesOfEncodeBytesIsTheOperation : Obligations.DecodeBytesOfEncodeBytesIsTheOperation := by
  intro i
  rw [decodeBytes_encodeBytes]
  refine ⟨fun hwf => frame_decode_encode_eq_ok.2 ⟨hwf, rfl⟩, fun hill => ?_⟩
  cases hdecode : (Frame.encode i).decode with
  | error why => exact ⟨why, rfl⟩
  | ok j =>
    obtain ⟨hwf, -⟩ := frame_decode_encode_eq_ok.1 hdecode
    rw [hill] at hwf
    cases hwf

/-- Settles O3. -/
theorem decodeOfEncodeIsTheOperation : Obligations.DecodeOfEncodeIsTheOperation := fun _ => decode_encode

/-- Settles O5: the ports are typed by R42 and R46, and the decoder of frames checks both. -/
theorem decodedOperationsAreWellFormed : Obligations.DecodedOperationsAreWellFormed :=
  ⟨wf_decode, fun _ _ => wf_of_frame_decode⟩

/-- Settles O8: fill each port up to its capacity with ignored characters. -/
theorem everyRequestFitsPortsOfEnoughCapacity : Obligations.EveryRequestFitsPortsOfEnoughCapacity := by
  intro tagMaxLen fieldMaxLen q htag hslots
  refine ⟨.padded tagMaxLen fieldMaxLen q, ?_, rfl⟩
  simp only [Machine.slotStrings, List.forall_mem_cons] at hslots
  obtain ⟨h0, h1, h2, h3, h4, h5, -⟩ := hslots
  simp [RequestPorts.hasCapacity, RequestPorts.padded, CharPort.padded_chr_length, htag, h0, h1, h2, h3, h4, h5]

/-- Settles O6. -/
theorem sampleFramesDecode : Obligations.SampleFramesDecode := ⟨rfl, rfl, rfl⟩

end Sys2Proof

namespace Sys2Proof.Machine

/-- Presenting a well-formed operation and stepping runs it. -/
theorem step_present {i : Instr} (h : i.wf = true) (s : State) : step (s.present i) = exec i (s.present i) := by
  rw [step, State.present_ports, decode_encode h]

theorem withFetchWord_eq_present {nbits w : Nat} {i : Instr} (h : decodeTableWord nbits w = some i) (s : State) :
    s.withFetchWord nbits w = s.present i := by
  rw [State.withFetchWord, h]

/-- With the composed ENCODER driven the ports present ENCODE on the request they carry (R66). -/
theorem decode_ports_of_composed {s : State} (h : s.bench.unit = .composed) :
    decode s.ports = .encode s.request.request := by
  simp [decode, State.ports, h]

/-- Settles O2: a well-formed operation is read back off the ports, and a frame names no other. -/
theorem presentedOperationsRun : Obligations.PresentedOperationsRun := by
  intro i s
  refine ⟨fun hwf => step_present hwf s, fun nbits w hframe => ?_⟩
  rw [withFetchWord_eq_present hframe]
  exact step_present (wf_of_decodeTableWord hframe) s

/-- Settles O1. -/
theorem stepRunsThePresentedOperation : Obligations.StepRunsThePresentedOperation := by
  intro s
  refine ⟨rfl, fun hcomposed => ?_⟩
  rw [step, decode_ports_of_composed hcomposed]

end Sys2Proof.Machine
end

section
/-! The errors of the block: which triples a slot, an assembler and ENCODE can fail with (60_exceptions.md R70), and
what ENCODE answers, outcome by outcome in the order of R75. -/

namespace Sys2Proof.Machine

/-! ## The table of error triples -/

/-- The five kinds of line of R70's table. -/
theorem listed_cases {e : EncodeError} (h : e.listed = true) :
    e = ⟨.unsupportedFormat, none, .unknownTag⟩ ∨
    (∃ f, e = ⟨.missingField, some f, .emptyField⟩) ∨
    (∃ f, f.isDecimal = true ∧ (e = ⟨.range, some f, .negative⟩ ∨ e = ⟨.range, some f, .tooWide⟩)) ∨
    (∃ f, f.isDecimal = true ∧ e = ⟨.format, some f, .badDecimalSyntax⟩) ∨
    (∃ f, f.isBinary = true ∧ e = ⟨.format, some f, .badBinaryPattern⟩) := by
  obtain ⟨kind, field, reason⟩ := e
  simp only [EncodeError.listed] at h
  split at h <;> simp_all

/-- An error of the composed ENCODER is one that some operation can produce. -/
theorem legal_of_listed {e : EncodeError} (h : e.listed = true) : e.legal = true := by
  obtain rfl | ⟨f, rfl⟩ | ⟨f, hf, rfl | rfl⟩ | ⟨f, hf, rfl⟩ | ⟨f, hf, rfl⟩ := listed_cases h
  · rfl
  · rfl
  all_goals exact hf

/-! ## The slot table -/

/-- A cell of the slot table asks of its field the representation the field has (R10, R46), at a positive width. -/
def SlotSpec.wf (spec : SlotSpec) : Bool :=
  match spec.kind with
  | .dec w => spec.field.isDecimal && decide (0 < w)
  | .bin w => spec.field.isBinary && decide (0 < w)

theorem slotTable_wf (fmt : Format) : ∀ spec ∈ slotTable fmt, spec.wf = true := by
  cases fmt <;> decide

/-- What a slot fails with is a line of R70's table. -/
theorem listed_of_slotFault {spec : SlotSpec} (hspec : spec.wf = true) {s : Str} {e : EncodeError}
    (h : slotFault spec s = some e) : e.listed = true := by
  obtain ⟨field, w | w⟩ := spec
  · have hfield : field.isDecimal = true := (Bool.and_eq_true_iff.1 hspec).1
    simp only [slotFault] at h
    split at h
    · cases h; exact hfield
    · split at h
      · cases h; exact hfield
      · split at h
        · cases h; exact hfield
        · cases h
  · have hfield : field.isBinary = true := (Bool.and_eq_true_iff.1 hspec).1
    simp only [slotFault] at h
    split at h
    · cases h
    · cases h; exact hfield

/-- The empty string is neither a numeral nor as long as a positive width. -/
theorem slotFault_nil {spec : SlotSpec} (hspec : spec.wf = true) : slotFault spec [] ≠ none := by
  obtain ⟨field, w | w⟩ := spec
  · simp [slotFault, isDecimal, digitsOf]
  · have hw : 0 < w := of_decide_eq_true (Bool.and_eq_true_iff.1 hspec).2
    simp [slotFault, hw.ne]

theorem spec_wf_of_mem_readSlots {fmt : Format} {q : Request} {x : SlotSpec × Str} (h : x ∈ readSlots fmt q) :
    x.1.wf = true :=
  slotTable_wf fmt x.1 (List.of_mem_zip h).1

theorem listed_of_firstFault {fmt : Format} {q : Request} {e : EncodeError} (h : firstFault fmt q = some e) :
    e.listed = true := by
  obtain ⟨x, hx, hfault⟩ := List.exists_of_findSome?_eq_some h
  exact listed_of_slotFault (spec_wf_of_mem_readSlots hx) hfault

/-- Where no slot below the arity is faulty none is empty. -/
theorem missingField_eq_none_of_firstFault {fmt : Format} {q : Request} (h : firstFault fmt q = none) :
    missingField fmt q = none := by
  refine List.findSome?_eq_none_iff.2 fun x hx => if_neg fun hempty => ?_
  have hfault : slotFault x.1 x.2 = none := List.findSome?_eq_none_iff.1 h x hx
  rw [hempty] at hfault
  exact slotFault_nil (spec_wf_of_mem_readSlots hx) hfault

/-! ## Assemblers -/

/-- An assembler fails exactly with the first fault of its slots. -/
theorem assemble_eq_error_iff {fmt : Format} {q : Request} {e : EncodeError} :
    assemble fmt q = .error e ↔ firstFault fmt q = some e := by
  obtain ⟨hfault, w, hw⟩ | ⟨e', hfault, hw⟩ := assemble_cases fmt q
  · simp [hfault, hw]
  · simp [hfault, hw]

/-- An assembler gives a word exactly if no slot is faulty. -/
theorem exists_assemble_eq_ok_iff {fmt : Format} {q : Request} :
    (∃ w, assemble fmt q = .ok w) ↔ firstFault fmt q = none := by
  obtain ⟨hfault, w, hw⟩ | ⟨e, hfault, hw⟩ := assemble_cases fmt q
  · simp [hfault, hw]
  · simp [hfault, hw]

/-- An assembler exposed on its own gives a word exactly if it does inside ENCODE. -/
theorem exec_assemblerOf_eq_word_iff {fmt : Format} {q : Request} {s : State} {w : Word} :
    exec (assemblerOf fmt q) s = .next (s.sample (.word w)) ↔ assemble fmt q = .ok w := by
  rw [exec_assemblerOf]
  cases assemble fmt q <;> simp [State.sample]

theorem exec_assemblerOf_of_error {fmt : Format} {q : Request} {e : EncodeError} (h : assemble fmt q = .error e)
    (s : State) : exec (assemblerOf fmt q) s = .next (s.sample (.failed e)) := by
  rw [exec_assemblerOf, h]
  rfl

/-! ## ENCODE, outcome by outcome -/

theorem encodeRequest_of_unknownTag {q : Request} (h : ∀ fmt, (q.tag, fmt) ∉ acceptedTags) :
    encodeRequest q = .error ⟨.unsupportedFormat, none, .unknownTag⟩ := by
  rw [encodeRequest, resolve_eq_error.2 ⟨rfl, h⟩]
  rfl

theorem encodeRequest_of_missingField {fmt : Format} {q : Request} {f : FieldName}
    (htag : (q.tag, fmt) ∈ acceptedTags) (h : missingField fmt q = some f) :
    encodeRequest q = .error ⟨.missingField, some f, .emptyField⟩ := by
  simp [encodeRequest, resolve_eq_ok.2 htag, checkPresent, h, fail]

/-- With every slot present, ENCODE is the assembler and then the renderers (R66). -/
theorem encodeRequest_of_present {fmt : Format} {q : Request} (htag : (q.tag, fmt) ∈ acceptedTags)
    (h : missingField fmt q = none) :
    encodeRequest q = do let w ← assemble fmt q; return .encoded w (binstr w) (hex w) := by
  simp [encodeRequest, resolve_eq_ok.2 htag, checkPresent, h]

theorem encodeRequest_of_firstFault {fmt : Format} {q : Request} {e : EncodeError}
    (htag : (q.tag, fmt) ∈ acceptedTags) (hpresent : missingField fmt q = none) (h : firstFault fmt q = some e) :
    encodeRequest q = .error e := by
  rw [encodeRequest_of_present htag hpresent, assemble_eq_error_iff.2 h]
  rfl

/-- Whatever its assembler accepts, ENCODE renders: an empty slot is a faulty one. -/
theorem encodeRequest_of_assemble {fmt : Format} {q : Request} {w : Word} (htag : (q.tag, fmt) ∈ acceptedTags)
    (h : assemble fmt q = .ok w) : encodeRequest q = .ok (.encoded w (binstr w) (hex w)) := by
  have hvalid : firstFault fmt q = none := exists_assemble_eq_ok_iff.1 ⟨w, h⟩
  rw [encodeRequest_of_present htag (missingField_eq_none_of_firstFault hvalid), h]
  rfl

/-- Every error of ENCODE is a line of R70's table. -/
theorem listed_of_encodeRequest_error {q : Request} {e : EncodeError} (h : encodeRequest q = .error e) :
    e.listed = true := by
  by_cases htag : ∃ fmt, (q.tag, fmt) ∈ acceptedTags
  · obtain ⟨fmt, htag⟩ := htag
    cases hmissing : missingField fmt q with
    | some f =>
      rw [encodeRequest_of_missingField htag hmissing] at h
      cases h
      rfl
    | none =>
      rw [encodeRequest_of_present htag hmissing] at h
      obtain hfail | ⟨w, -, hrendered⟩ := Result.bind_eq_error.1 h
      · exact listed_of_firstFault (assemble_eq_error_iff.1 hfail)
      · cases hrendered
  · rw [encodeRequest_of_unknownTag (not_exists.1 htag)] at h
    cases h
    rfl

/-- ENCODE's response to a request: a word with its renderings, or a triple of R70's table. -/
theorem encodeRequest_response_cases (q : Request) :
    (∃ w, (encodeRequest q).response = .encoded w (binstr w) (hex w)) ∨
      ∃ e : EncodeError, e.listed = true ∧ (encodeRequest q).response = .failed e := by
  obtain ⟨w, hsuccess⟩ | ⟨e, hfailure⟩ := encodeRequest_cases q
  · exact .inl ⟨w, by rw [hsuccess, Result.response_ok]⟩
  · exact .inr ⟨e, listed_of_encodeRequest_error hfailure, by rw [hfailure, Result.response_error]⟩

end Sys2Proof.Machine
end

section
/-! What a step can do, and the response it reads (10_state.md sections 2 and 4, 70_reset_and_hazards.md section 1). -/

namespace Sys2Proof.Machine

/-! ## An operation that goes on -/

/-- An operation that goes on has read one response, the same from every state, and changed nothing else (R8, R9). -/
theorem exec_eq_next {i : Instr} {s t : State} (h : exec i s = .next t) :
    t = s.sample t.sampled ∧ ∀ s', exec i s' = .next (s'.sample t.sampled) := by
  obtain ⟨r, hexec⟩ | ⟨str, -, -, -, hrefused⟩ := exec_cases i
  · rw [hexec s] at h
    cases h
    exact ⟨rfl, hexec⟩
  · rw [hrefused s] at h
    cases h

/-- A step that goes on has read one response, which stepping from any state with the same ports reads too. -/
theorem step_eq_next {s t : State} (h : step s = .next t) :
    t = s.sample t.sampled ∧ ∀ s' : State, s'.ports = s.ports → step s' = .next (s'.sample t.sampled) := by
  obtain ⟨ht, hexec⟩ := exec_eq_next h
  refine ⟨ht, fun s' hports => ?_⟩
  rw [step, hports, hexec]

/-- A step of the composed ENCODER reads what the response ports carry (R19, R86). -/
theorem step_of_composed {s : State} (h : s.bench.unit = .composed) : step s = .next (s.sample s.response) := by
  rw [step, decode_ports_of_composed h, exec_encode]
  rfl

/-! ## Sessions -/

/-- In a session each request is answered with ENCODE's response to it, whatever came before. -/
theorem session_eq_map (s : State) (ps : List RequestPorts) :
    session s ps = some (ps.map fun p => (encodeRequest p.request).response) := by
  induction ps generalizing s with
  | nil => rfl
  | cons p ps ih => simp [session, step_driveRequest, ih]

/-! ## The errors an operation can produce -/

/-- Every error of `x` is one that an operation can produce (R70, log entry 2). -/
def FailsLegally {α : Type} (x : Result α) : Prop := ∀ e, x = .error e → e.legal = true

theorem FailsLegally.ok {α : Type} (a : α) : FailsLegally (.ok a : Result α) := fun _ h => nomatch h

theorem FailsLegally.error {α : Type} {e : EncodeError} (h : e.legal = true) :
    FailsLegally (.error e : Result α) := by
  rintro _ ⟨⟩
  exact h

theorem FailsLegally.bind {α β : Type} {x : Result α} {f : α → Result β} (hx : FailsLegally x)
    (hf : ∀ a, FailsLegally (f a)) : FailsLegally (x >>= f) := by
  intro e he
  obtain hfail | ⟨a, -, hfail⟩ := Result.bind_eq_error.1 he
  · exact hx e hfail
  · exact hf a e hfail

theorem parseDec_failsLegally {field : Option FieldName} (h : decimalLabel field = true) (s : Str) :
    FailsLegally (parseDec field s) := by
  unfold parseDec
  split
  · exact .ok _
  · exact .error h

theorem dec2binInt_failsLegally {field : Option FieldName} (h : decimalLabel field = true) (v : Int) (w : Nat) :
    FailsLegally (dec2binInt field v w) := by
  unfold dec2binInt
  split
  · exact .error h
  · split
    · exact .error h
    · exact .ok _

theorem dec2bin_failsLegally {field : Option FieldName} (h : decimalLabel field = true) (s : Str) (w : Nat) :
    FailsLegally (dec2bin field s w) :=
  (parseDec_failsLegally h s).bind fun v => dec2binInt_failsLegally h v w

theorem dec2binOperand_failsLegally {field : Option FieldName} (h : decimalLabel field = true) (value : DecOperand)
    (w : Nat) : FailsLegally (dec2binOperand field value w) := by
  cases value with
  | str s => exact dec2bin_failsLegally h s w
  | int v => exact dec2binInt_failsLegally h v w

theorem binval_failsLegally {field : Option FieldName} (h : binaryLabel field = true) (s : Str) (w : Nat) :
    FailsLegally (binval field s w) := by
  unfold binval
  split
  · exact .ok _
  · exact .error h

/-- A word's assembler fails with lines of R70's table only. -/
theorem assemble_failsLegally (fmt : Format) (q : Request) : FailsLegally (assemble fmt q) := fun _ h =>
  legal_of_listed (listed_of_firstFault (assemble_eq_error_iff.1 h))

theorem resolve_failsLegally (tag : Str) : FailsLegally (resolve tag) := by
  intro e h
  obtain ⟨rfl, -⟩ := resolve_eq_error.1 h
  rfl

/-! ## The invariant -/

/-- A sub-block that fails legally is read as a coherent response, if its success is one. -/
theorem coherent_map {α : Type} {x : Result α} {C : α → Response} (hx : FailsLegally x)
    (hC : ∀ a, (C a).coherent = true) : (Result.response (do return C (← x))).coherent = true := by
  cases h : x with
  | ok a => exact hC a
  | error e => exact hx e h

theorem encodeRequest_response_coherent (q : Request) : (encodeRequest q).response.coherent = true := by
  obtain ⟨w, hr⟩ | ⟨e, he, hr⟩ := encodeRequest_response_cases q
  · simp [hr, Response.coherent]
  · rw [hr]
    exact legal_of_listed he

/-- HEXS's one error is FormatError(none, WORD_LENGTH), and its success is a text (R62). -/
theorem execHexs_coherent {str : Str} {s t : State} (h : execHexs str s = .next t) :
    t.sampled.coherent = true := by
  unfold execHexs at h
  split at h
  · split at h
    · cases h; rfl
    · cases h
  · cases h; rfl

/-- What a delivered result is read as is the response it is. -/
theorem sampled_of_deliver {r : Result Response} {s t : State} (h : deliver r s = .next t) :
    t.sampled = r.response := by
  rw [deliver_eq] at h
  cases h
  rfl

theorem assemblerOf_coherent {fmt : Format} {q : Request} {s t : State}
    (h : exec (assemblerOf fmt q) s = .next t) : t.sampled.coherent = true := by
  rw [exec_assemblerOf] at h
  rw [sampled_of_deliver h]
  exact coherent_map (assemble_failsLegally fmt q) fun _ => rfl

/-- A well-formed operation gives a coherent response: its labels are of the representation that R70 lists its errors
with. -/
theorem exec_coherent {i : Instr} (hwf : i.wf = true) {s t : State} (h : exec i s = .next t) :
    t.sampled.coherent = true := by
  cases i with
  | encR f7 rs2 rs1 f3 rd op => exact assemblerOf_coherent (fmt := .R) (q := ⟨[], f7, rs2, rs1, f3, rd, op⟩) h
  | encI imm rs1 f3 rd op => exact assemblerOf_coherent (fmt := .I) (q := ⟨[], imm, rs1, f3, rd, op, []⟩) h
  | encS imm rs2 rs1 f3 op => exact assemblerOf_coherent (fmt := .S) (q := ⟨[], imm, rs2, rs1, f3, op, []⟩) h
  | encSB imm rs2 rs1 f3 op => exact assemblerOf_coherent (fmt := .SB) (q := ⟨[], imm, rs2, rs1, f3, op, []⟩) h
  | encU imm rd op => exact assemblerOf_coherent (fmt := .U) (q := ⟨[], imm, rd, op, [], [], []⟩) h
  | encUJ imm rd op => exact assemblerOf_coherent (fmt := .UJ) (q := ⟨[], imm, rd, op, [], [], []⟩) h
  | parseDec str =>
    rw [sampled_of_deliver h]
    exact coherent_map (parseDec_failsLegally rfl str) fun _ => rfl
  | dec2bin label value w =>
    rw [sampled_of_deliver h]
    exact coherent_map (dec2binOperand_failsLegally (wf_dec2bin_iff.1 hwf).1 value w) fun _ => rfl
  | binval label str w =>
    rw [sampled_of_deliver h]
    exact coherent_map (binval_failsLegally (wf_binval_iff.1 hwf) str w) fun _ => rfl
  | binstr w => cases h; rfl
  | hex w => cases h; rfl
  | hexs str => exact execHexs_coherent h
  | resolve tag =>
    rw [sampled_of_deliver h]
    exact coherent_map (resolve_failsLegally tag) fun _ => rfl
  | encode q =>
    rw [sampled_of_deliver h]
    exact encodeRequest_response_coherent q

/-! ## The obligations -/

/-- Settles O11: a step leaves the ports alone, so the next one reads the same response. -/
theorem everyStepSettlesTheResponse : Obligations.EveryStepSettlesTheResponse := by
  intro s t h
  obtain ⟨ht, hagain⟩ := step_eq_next h
  have hports : t.ports = s.ports := by rw [ht, State.sample_ports]
  exact hagain t hports

/-- Settles O13: the ports present well-formed operations only. -/
theorem everyStepKeepsTheInvariant : Obligations.EveryStepKeepsTheInvariant := fun s _ _ h =>
  exec_coherent (wf_decode s.ports) h

/-- Settles O9: the answer is ENCODE's response to the request that the ports carry. -/
theorem sessionsAnswerEachRequestAlone : Obligations.SessionsAnswerEachRequestAlone :=
  ⟨fun p => (encodeRequest p.request).response, fun s p => session_eq_map s [p], session_eq_map⟩

/-- Settles O10: the response ports are ENCODE's response to the request by definition, and a step leaves the request
alone. -/
theorem responsePortsFollowTheRequestPorts : Obligations.ResponsePortsFollowTheRequestPorts := by
  intro s
  refine ⟨exec_encode _ s, step_of_composed, fun s' hrequest => ?_, fun t hstep => ?_, fun p t hstep => ?_, ?_⟩
  · rw [State.response, hrequest, State.response]
  · obtain ⟨ht, -⟩ := step_eq_next hstep
    rw [ht, State.sample_response]
  · rw [step_driveRequest] at hstep
    cases hstep
    rfl
  · obtain hsuccess | ⟨e, he, hfailure⟩ := encodeRequest_response_cases s.request.request
    · exact .inl hsuccess
    · exact .inr ⟨e, legal_of_listed he, hfailure⟩

/-- Settles O12. -/
theorem resetIsSettled : Obligations.ResetIsSettled := ⟨rfl, rfl, rfl, rfl, rfl, rfl⟩

/-- Settles O14. -/
theorem resetMeetsTheInvariant : Obligations.ResetMeetsTheInvariant := rfl

/-- Settles O15: an operation that goes on has read one response and changed nothing else. -/
theorem operationsChangeOnlyTheResponse : Obligations.OperationsChangeOnlyTheResponse := by
  intro i s t h
  obtain ⟨ht, -⟩ := exec_eq_next h
  refine ⟨?_, ?_, ?_, ht⟩
  · rw [ht, State.sample_request]
  · rw [ht, State.sample_bench]
  · rw [ht, State.sample_response]

end Sys2Proof.Machine
end

section
/-! ENCODE and RESOLVE: tags, the order of errors, the slots that matter, the ports (43_dispatcher.md,
60_exceptions.md). -/

namespace Sys2Proof.Machine

/-! ## The lowest empty slot -/

/-- The presence check reports the lowest empty slot below the arity. -/
theorem missingField_of_lowest {fmt : Format} {q : Request} {i : Nat} {spec : SlotSpec}
    (hspec : (slotTable fmt)[i]? = some spec) (hempty : (slotStrings q)[i]? = some [])
    (hlowest : ∀ j, j < i → (slotStrings q)[j]? ≠ some []) : missingField fmt q = some spec.field := by
  obtain ⟨-, hpresent⟩ | ⟨k, spec', hspec', hempty', hlowest', hfield⟩ := missingField_cases fmt q
  · have hi : i < arity fmt := (List.getElem?_eq_some_iff.1 hspec).1
    exact absurd hempty (hpresent i hi)
  · have hik : i = k := le_antisymm (not_lt.1 fun hki => hlowest k hki hempty')
      (not_lt.1 fun hik => hlowest' i hik hempty)
    subst hik
    rw [hspec] at hspec'
    rw [hfield, Option.some.inj hspec']

theorem missingField_of_present {fmt : Format} {q : Request}
    (h : ∀ i, i < arity fmt → (slotStrings q)[i]? ≠ some []) : missingField fmt q = none := by
  obtain ⟨hnone, -⟩ | ⟨i, spec, hspec, hempty, -, -⟩ := missingField_cases fmt q
  · exact hnone
  · exact absurd hempty (h i (List.getElem?_eq_some_iff.1 hspec).1)

/-! ## Slots beyond the arity -/

/-- A request's slots below the arity are all that a format reads of it. -/
theorem slot_eqs_of_arity {fmt : Format} {q q' : Request}
    (h : ∀ i, i < arity fmt → (slotStrings q')[i]? = (slotStrings q)[i]?) :
    readSlots fmt q' = readSlots fmt q ∧ assemble fmt q' = assemble fmt q := by
  have htake : (slotStrings q').take (arity fmt) = (slotStrings q).take (arity fmt) := by
    refine List.ext_getElem? fun i => ?_
    by_cases hi : i < arity fmt
    · simp only [List.getElem?_take_of_lt hi, h i hi]
    · simp only [List.getElem?_take_eq_none (not_lt.1 hi)]
  cases fmt <;>
    simp only [arity, slotTable, slotStrings, List.length_cons, List.length_nil, List.take_succ_cons, List.take_zero,
      List.cons.injEq, and_true] at htake <;>
    simp [readSlots, slotTable, slotStrings, assemble, htake]

theorem encodeRequest_congr {fmt : Format} {q q' : Request} (htag : (q.tag, fmt) ∈ acceptedTags)
    (htag' : q'.tag = q.tag) (h : ∀ i, i < arity fmt → (slotStrings q')[i]? = (slotStrings q)[i]?) :
    encodeRequest q' = encodeRequest q := by
  obtain ⟨hslots, hassemble⟩ := slot_eqs_of_arity h
  have hmissing : missingField fmt q' = missingField fmt q := by rw [missingField, hslots, missingField]
  simp only [encodeRequest, htag', resolve_eq_ok.2 htag, Result.ok_bind, checkPresent, hmissing, hassemble]

/-! ## A request for every line of the error table -/

/-- A valid request of format R, or of format I for `imm`, with the slot of field `f` replaced by `str`. -/
def requestWith (f : FieldName) (str : Str) : Request :=
  let zero : Str := [ch0]
  let bits3 : Str := List.replicate 3 ch0
  let bits7 : Str := List.replicate 7 ch0
  match f with
  | .funct7 => ⟨[chR], str, zero, zero, bits3, zero, bits7⟩
  | .rs2    => ⟨[chR], bits7, str, zero, bits3, zero, bits7⟩
  | .rs1    => ⟨[chR], bits7, zero, str, bits3, zero, bits7⟩
  | .funct3 => ⟨[chR], bits7, zero, zero, str, zero, bits7⟩
  | .rd     => ⟨[chR], bits7, zero, zero, bits3, str, bits7⟩
  | .opcode => ⟨[chR], bits7, zero, zero, bits3, zero, str⟩
  | .imm    => ⟨[chI], str, zero, bits3, zero, bits7, []⟩

theorem encodeRequest_requestWith_nil (f : FieldName) :
    encodeRequest (requestWith f []) = .error ⟨.missingField, some f, .emptyField⟩ := by
  cases f <;> rfl

/-- The numeral of a negative number in any decimal field. -/
theorem encodeRequest_requestWith_negative {f : FieldName} (h : f.isDecimal = true) :
    encodeRequest (requestWith f [chMinus, ch1]) = .error ⟨.range, some f, .negative⟩ := by
  cases f <;> simp [FieldName.isDecimal] at h <;> rfl

/-- 10000 is too wide for every decimal field of formats R and I. -/
theorem encodeRequest_requestWith_tooWide {f : FieldName} (h : f.isDecimal = true) :
    encodeRequest (requestWith f [ch1, ch0, ch0, ch0, ch0]) = .error ⟨.range, some f, .tooWide⟩ := by
  cases f <;> simp [FieldName.isDecimal] at h <;> rfl

theorem encodeRequest_requestWith_badDecimal {f : FieldName} (h : f.isDecimal = true) :
    encodeRequest (requestWith f [chX]) = .error ⟨.format, some f, .badDecimalSyntax⟩ := by
  cases f <;> simp [FieldName.isDecimal] at h <;> rfl

theorem encodeRequest_requestWith_badBinary {f : FieldName} (h : f.isBinary = true) :
    encodeRequest (requestWith f [chX]) = .error ⟨.format, some f, .badBinaryPattern⟩ := by
  cases f <;> simp [FieldName.isBinary, FieldName.isDecimal] at h <;> rfl

/-- Every line of R70's table is the error of some request. -/
theorem exists_encodeRequest_eq_error {e : EncodeError} (h : e.listed = true) : ∃ q, encodeRequest q = .error e := by
  obtain rfl | ⟨f, rfl⟩ | ⟨f, hf, rfl | rfl⟩ | ⟨f, hf, rfl⟩ | ⟨f, hf, rfl⟩ := listed_cases h
  · exact ⟨⟨[], [], [], [], [], [], []⟩, rfl⟩
  · exact ⟨_, encodeRequest_requestWith_nil f⟩
  · exact ⟨_, encodeRequest_requestWith_negative hf⟩
  · exact ⟨_, encodeRequest_requestWith_tooWide hf⟩
  · exact ⟨_, encodeRequest_requestWith_badDecimal hf⟩
  · exact ⟨_, encodeRequest_requestWith_badBinary hf⟩

/-! ## Codes on the error ports -/

theorem fieldId_eq_zero_iff {f : Option FieldName} : fieldId f = 0 ↔ f = none := by
  rcases f with _ | f
  · simp [fieldId]
  · cases f <;> simp [fieldId]

/-- The codes of a line of R70's table: `err_kind` from 1 to 4, `err_reason` neither 0 nor 5, `err_field` 0 exactly
for UnsupportedFormatError. -/
theorem codes_of_listed {e : EncodeError} (h : e.listed = true) :
    1 ≤ e.kind.code.toNat ∧ e.kind.code.toNat ≤ 4 ∧ e.reason.code ≠ 0 ∧ e.reason.code ≠ 5 ∧
      (fieldId e.field = 0 ↔ e.kind.code = 3) := by
  rw [fieldId_eq_zero_iff]
  obtain rfl | ⟨f, rfl⟩ | ⟨f, -, rfl | rfl⟩ | ⟨f, -, rfl⟩ | ⟨f, -, rfl⟩ := listed_cases h <;>
    simp [ErrKind.code, ErrReason.code]

theorem isBinary_bitString {w : Nat} (v : BitVec w) : IsBinary (bitString v) w :=
  ⟨bitString_length v, all_isBit_iff.1 (bitString_all_isBit v)⟩

/-! ## The obligations -/

/-- Settles O38. -/
theorem resolveAcceptsExactlySixteenTags : Obligations.ResolveAcceptsExactlySixteenTags := by
  intro tag s
  have hexec : exec (.resolve tag) s = deliver (do return .format (← resolve tag)) s := rfl
  rw [hexec]
  refine ⟨fun fmt htag => ?_, fun hunknown => ?_⟩
  · rw [resolve_eq_ok.2 htag]
    rfl
  · rw [resolve_eq_error.2 ⟨rfl, hunknown⟩]
    rfl

/-- Settles O40: an assembler that gives a word found no slot empty. -/
theorem encodeRendersTheAssembledWord : Obligations.EncodeRendersTheAssembledWord := by
  intro fmt q s w htag hword
  have hencode := encodeRequest_of_assemble htag (exec_assemblerOf_eq_word_iff.1 hword)
  exact ⟨binstr w, hex w, by rw [exec_encode, hencode, Result.response_ok], rfl, rfl⟩

/-- Settles O41: the outcomes of ENCODE in R75's order. -/
theorem encodeFollowsTheErrorPriority : Obligations.EncodeFollowsTheErrorPriority := by
  intro q s
  simp only [exec_encode]
  refine ⟨fun hunknown => ?_, fun fmt htag => ⟨fun i spec hspec hempty hlowest => ?_, fun hpresent => ⟨?_, ?_⟩⟩⟩
  · rw [encodeRequest_of_unknownTag hunknown, Result.response_error]
  · rw [encodeRequest_of_missingField htag (missingField_of_lowest hspec hempty hlowest), Result.response_error]
  · intro e hfault
    rw [encodeRequest_of_firstFault htag (missingField_of_present hpresent) hfault, Result.response_error]
  · intro hvalid
    obtain ⟨w, hw⟩ := exists_assemble_eq_ok_iff.2 hvalid
    exact ⟨w, binstr w, hex w, by rw [encodeRequest_of_assemble htag hw, Result.response_ok]⟩

/-- Settles O42: ENCODE is a function of the tag and of the slots below the arity. -/
theorem slotsBeyondTheArityNeverMatter : Obligations.SlotsBeyondTheArityNeverMatter := by
  intro fmt q q' s htag htag' hslots
  rw [exec_encode, exec_encode, encodeRequest_congr htag htag' hslots]

/-- Settles O43. -/
theorem encodeProducesExactlyTheListedErrors : Obligations.EncodeProducesExactlyTheListedErrors := by
  intro e
  refine ⟨fun hlisted => ?_, fun ⟨q, hq⟩ => ?_⟩
  · obtain ⟨q, hq⟩ := exists_encodeRequest_eq_error hlisted
    exact ⟨q, fun s => by rw [exec_encode, hq, Result.response_error]⟩
  · have hfailed : (encodeRequest q).response = .failed e := by simpa [exec_encode, State.sample] using hq .reset
    obtain ⟨w, hw⟩ | ⟨e', hlisted, he'⟩ := encodeRequest_response_cases q
    · rw [hw] at hfailed
      cases hfailed
    · rw [he'] at hfailed
      cases hfailed
      exact hlisted

/-- Settles O44: either way the response is ENCODE's to some request, a rendered word or a line of R70's table. -/
theorem responsePortsOfEncode : Obligations.ResponsePortsOfEncode := by
  intro r hr
  have hrequest : ∃ q, r = (encodeRequest q).response := by
    obtain ⟨s, rfl⟩ | ⟨q, s, t, hexec, rfl⟩ := hr
    · exact ⟨s.request.request, rfl⟩
    · exact ⟨q, sampled_of_deliver hexec⟩
  obtain ⟨q, rfl⟩ := hrequest
  obtain ⟨w, hw⟩ | ⟨e, hlisted, he⟩ := encodeRequest_response_cases q
  · rw [hw]
    exact .inl ⟨rfl, rfl, rfl, rfl, w, binstr w, hex w, rfl, rfl, rfl, isBinary_bitString w, rfl, rfl⟩
  · rw [he]
    exact .inr ⟨rfl, rfl, rfl, rfl, ⟨e, hlisted, rfl, rfl, rfl⟩, codes_of_listed hlisted⟩

end Sys2Proof.Machine
end

section
/-! The field primitives and the renderers on their own (40_field_primitives.md, 42_hex_renderer.md). -/

namespace Sys2Proof.Machine

/-! ## Numerals -/

/-- R41's sum over the positions of a digit string. -/
theorem digitsValue_eq_sum (ds : Str) :
    digitsValue ds = ∑ k : Fin ds.length, (ds[k].toNat - 0x30) * 10 ^ (ds.length - 1 - k) := by
  induction ds with
  | nil => rfl
  | cons c cs ih =>
    rw [digitsValue, ih]
    simp only [List.length_cons, Fin.sum_univ_succ, Nat.add_sub_cancel]
    congr 1
    refine Finset.sum_congr rfl fun k _ => ?_
    have hexponent : cs.length - 1 - k = cs.length - (k + 1) := by omega
    simp [hexponent]

/-- A non-empty digit string denotes R41's sum. -/
theorem denotes_of_digits {ds : Str} (hne : ds ≠ []) (h : ds.all isDigit = true) : Denotes ds (digitsValue ds) :=
  ⟨isDecimal_of_digits hne h, decimalValue_of_digits h⟩

/-- After a minus sign it denotes the negated sum. -/
theorem denotes_of_minus_digits {ds : Str} (hne : ds ≠ []) (h : ds.all isDigit = true) :
    Denotes (chMinus :: ds) (-(digitsValue ds : Int)) := by
  have hdigits : digitsOf (chMinus :: ds) = ds := by rw [digitsOf, if_pos rfl]
  refine ⟨?_, ?_⟩
  · simp [isDecimal, hdigits, h, hne]
  · simp [decimalValue, hdigits]

/-! ## DEC2BIN -/

theorem dec2bin_of_not_isDecimal (field : Option FieldName) {str : Str} (w : Nat) (h : isDecimal str = false) :
    dec2bin field str w = .error ⟨.format, field, .badDecimalSyntax⟩ := by
  simp [dec2bin, parseDec, fail, h]

theorem exec_dec2bin_eq_bits_iff {label : Option FieldName} {value : DecOperand} {w : Nat} {b : BitVec w} {s : State} :
    exec (.dec2bin label value w) s = .next (s.sample (.bits w b)) ↔ dec2binOperand label value w = .ok b := by
  rw [exec_dec2bin]
  cases dec2binOperand label value w <;> simp [State.sample]

/-- DEC2BIN keeps the value (R44 b). -/
theorem eq_toNat_of_dec2binInt {field : Option FieldName} {v : Int} {w : Nat} {b : BitVec w}
    (h : dec2binInt field v w = .ok b) : v = b.toNat := by
  obtain ⟨h0, hw, -⟩ := dec2binInt_eq_ok.1 h
  obtain ⟨b', rfl⟩ := exists_toNat_eq h0 hw
  rw [dec2binInt_toNat] at h
  cases h
  rfl

theorem denotes_of_dec2bin {field : Option FieldName} {str : Str} {w : Nat} {b : BitVec w}
    (h : dec2bin field str w = .ok b) : Denotes str b.toNat := by
  obtain ⟨hdecimal, -⟩ := dec2bin_eq_ok.1 h
  have hvalue : Denotes str (decimalValue str) := ⟨hdecimal, rfl⟩
  rw [dec2bin_eq_dec2binInt field w hvalue] at h
  exact ⟨hdecimal, eq_toNat_of_dec2binInt h⟩

/-- R44 (a) for integers. -/
theorem exists_exec_dec2bin_int_iff {label : Option FieldName} {v : Int} {w : Nat} {s : State} :
    (∃ b : BitVec w, exec (.dec2bin label (.int v) w) s = .next (s.sample (.bits w b))) ↔ 0 ≤ v ∧ v < 2 ^ w := by
  simp [exec_dec2bin_eq_bits_iff, dec2binOperand, dec2binInt_eq_ok]

/-- The vector of `2 ^ w - n` has the two's-complement value `-n` (R33). -/
theorem toInt_eq_neg {w n : Nat} {b : BitVec w} (hw : 0 < w) (hle : n ≤ 2 ^ (w - 1))
    (hb : (b.toNat : Int) = 2 ^ w - n) : b.toInt = -n := by
  have hhalf : 2 ^ w = 2 * 2 ^ (w - 1) := by rw [← pow_succ', Nat.sub_add_cancel hw]
  have hcast : ((2 ^ w : Nat) : Int) = 2 ^ w := by push_cast; rfl
  rw [BitVec.toInt_eq_toNat_cond]
  split <;> omega

/-! ## BINVAL -/

theorem isBinary_iff {str : Str} {w : Nat} : IsBinary str w ↔ str.length = w ∧ str.all isBit = true := by
  rw [IsBinary, all_isBit_iff]

/-- The vector BINVAL reads has bit `w - 1 - k` set exactly where character `k` is `'1'` (R45). -/
theorem getLsbD_bitsValue {str : Str} {w k : Nat} (hlen : str.length = w) (hk : k < w) :
    (BitVec.ofNat w (bitsValue str)).getLsbD (w - 1 - k) = true ↔ str[k]? = some 0x31 := by
  subst hlen
  have hbit : str.length - 1 - k < str.length := by omega
  rw [BitVec.getLsbD_ofNat, bitsValue_testBit str k hk, List.getElem?_eq_getElem hk]
  simp only [hbit, ch1, decide_true, Bool.true_and, Option.some.injEq]
  exact decide_eq_true_iff

/-- Rendering the vector BINVAL reads gives the string back. -/
theorem bitString_bitsValue {str : Str} {w : Nat} (h : IsBinary str w) :
    bitString (BitVec.ofNat w (bitsValue str)) = str := by
  obtain ⟨hlen, hchars⟩ := h
  refine List.ext_getElem (by simp [hlen]) fun k hk hk' => ?_
  have hbit := getLsbD_bitsValue hlen (hlen ▸ hk')
  rw [List.getElem?_eq_getElem hk', Option.some.injEq] at hbit
  rw [bitString_getElem]
  obtain hzero | hone := hchars str[k] (List.getElem_mem hk')
  · rw [if_neg (by rw [hbit, hzero]; decide), hzero]
    rfl
  · rw [if_pos (hbit.2 hone), hone]
    rfl

theorem binval_of_isBinary (field : Option FieldName) {str : Str} {w : Nat} (h : IsBinary str w) :
    binval field str w = .ok (BitVec.ofNat w (bitsValue str)) :=
  if_pos (isBinary_iff.1 h)

theorem binval_of_not_isBinary (field : Option FieldName) {str : Str} {w : Nat} (h : ¬ IsBinary str w) :
    binval field str w = .error ⟨.format, field, .badBinaryPattern⟩ :=
  if_neg (mt isBinary_iff.2 h)

theorem exec_binval_of_ok {label : Option FieldName} {str : Str} {w : Nat} {b : BitVec w}
    (h : binval label str w = .ok b) (s : State) : exec (.binval label str w) s = .next (s.sample (.bits w b)) := by
  rw [exec, execBinval, h]
  rfl

theorem exec_binval_of_error {label : Option FieldName} {str : Str} {w : Nat} {e : EncodeError}
    (h : binval label str w = .error e) (s : State) : exec (.binval label str w) s = .next (s.sample (.failed e)) := by
  rw [exec, execBinval, h]
  rfl

/-! ## Renderers -/

/-- After `0x`, character `2 + j` of a Hex Word is the digit of nibble `j`. -/
theorem hex_getElem? (w : Word) {j : Nat} (hj : j < 8) : (hex w)[2 + j]? = some (hexDigit (nibble w j)) := by
  have hlt : 2 + j < (hex w).length := by rw [show (hex w).length = 10 from rfl]; omega
  rw [← hex_getD w hj, List.getElem?_eq_getElem hlt, List.getD_eq_getElem _ _ hlt]

/-- HEXS on a length other than 32 (R62). -/
theorem exec_hexs_of_length_ne {str : Str} (s : State) (h : str.length ≠ 32) :
    exec (.hexs str) s = .next (s.sample (.failed ⟨.format, none, .wordLength⟩)) := by
  exact if_neg h

/-- HEXS on binary content is HEX of its vector (R62). -/
theorem exec_hexs_of_isBinary {str : Str} (s : State) (h : IsBinary str 32) :
    exec (.hexs str) s = exec (.hex (BitVec.ofNat 32 (bitsValue str))) s := by
  obtain ⟨hlen, hbits⟩ := isBinary_iff.1 h
  exact (if_pos hlen).trans (if_pos hbits)

/-- HEXS refuses 32 characters of other content (R62, D16). -/
theorem exec_hexs_of_not_isBinary {str : Str} (s : State) (hlen : str.length = 32) (h : ¬ IsBinary str 32) :
    exec (.hexs str) s = .refused .hexsContent := by
  have hbits : ¬ str.all isBit = true := fun hbits => h (isBinary_iff.2 ⟨hlen, hbits⟩)
  exact (if_pos hlen).trans (if_neg hbits)

/-! ## The obligations -/

/-- Settles O16: R40's grammar test is that pattern. -/
theorem parseDecAcceptsExactlyTheNumerals : Obligations.ParseDecAcceptsExactlyTheNumerals := by
  intro str s
  rw [← isDecimal_iff]
  exact ⟨fun h => ⟨decimalValue str, exec_parseDec_of_denotes s ⟨h, rfl⟩⟩,
    fun h => exec_parseDec_of_not_isDecimal s (Bool.eq_false_of_not_eq_true h)⟩

/-- Settles O17: the recursion over the digits is the sum over their positions. -/
theorem parseDecValueIsThePositionalSum : Obligations.ParseDecValueIsThePositionalSum := by
  intro ds s hne hdigits
  have hall : ds.all isDigit = true := List.all_eq_true.2 fun c hc => isDigit_iff.2 (hdigits c hc)
  rw [← digitsValue_eq_sum]
  exact ⟨exec_parseDec_of_denotes s (denotes_of_digits hne hall),
    exec_parseDec_of_denotes s (denotes_of_minus_digits hne hall)⟩

/-- Settles O18: a numeral goes the way of its integer. -/
theorem dec2binOnAString : Obligations.Dec2binOnAString := by
  intro label str w s
  refine ⟨fun h => exec_dec2bin_of_error (value := .str str) (dec2bin_of_not_isDecimal label w h) s, fun v hv => ?_⟩
  obtain ⟨hneg, hwide, hrange, -⟩ := dec2binIntegerFormAgrees label v w s
  rw [exec_dec2bin_str_eq_int label w s hv]
  exact ⟨hneg, hwide, hrange⟩

/-- Settles O20. -/
theorem dec2binKeepsTheValue : Obligations.Dec2binKeepsTheValue := by
  intro label w s
  refine ⟨fun v => ⟨exists_exec_dec2bin_int_iff, fun str hv => ?_⟩, fun b => ⟨?_, fun str h => ?_, fun v h => ?_, ?_⟩⟩
  · rw [exec_dec2bin_str_eq_int label w s hv]
    exact exists_exec_dec2bin_int_iff
  · obtain ⟨str, -, hstr⟩ := exists_numeral b.toNat
    exact ⟨str, exec_dec2bin_of_ok (value := .str str) (dec2bin_of_denotes label hstr) s⟩
  · exact denotes_of_dec2bin (exec_dec2bin_eq_bits_iff.1 h)
  · exact eq_toNat_of_dec2binInt (exec_dec2bin_eq_bits_iff.1 h)
  · exact fun label' => exec_binval_of_ok (binval_bitString label' b) s

/-- Settles O21: a negative value fails the first test; the numeral of `2 ^ w - n` is in range. -/
theorem negativeValuesAreSuppliedAsPatterns : Obligations.NegativeValuesAreSuppliedAsPatterns := by
  intro label w str s
  refine ⟨fun v hneg => ?_, fun n hw _ hle hstr => ?_⟩
  · have hint : exec (.dec2bin label (.int v) w) s = .next (s.sample (.failed ⟨.range, label, .negative⟩)) :=
      exec_dec2bin_of_error (value := .int v) (dec2binInt_of_neg label w hneg) s
    exact ⟨hint, fun hv => (exec_dec2bin_str_eq_int label w s hv).trans hint⟩
  · have hpow : (2 : Int) ^ (w - 1) ≤ 2 ^ w := pow_le_pow_right₀ (by norm_num) (Nat.sub_le w 1)
    have hle' : (n : Int) ≤ 2 ^ (w - 1) := by exact_mod_cast hle
    obtain ⟨b, hb⟩ := exists_toNat_eq (v := 2 ^ w - n) (w := w) (by omega) (by omega)
    rw [← hb] at hstr
    exact ⟨b, toInt_eq_neg hw hle hb, exec_dec2bin_of_ok (value := .str str) (dec2bin_of_denotes label hstr) s⟩

/-- Settles O22. -/
theorem binvalAcceptsExactlyTheWidth : Obligations.BinvalAcceptsExactlyTheWidth := by
  intro label str w s
  refine ⟨fun h => ?_, fun h => exec_binval_of_error (binval_of_not_isBinary label h) s⟩
  exact ⟨_, exec_binval_of_ok (binval_of_isBinary label h) s, bitString_bitsValue h,
    fun k hk => getLsbD_bitsValue h.1 hk⟩

/-- Settles O23: BINSTR is the rendering of the word. -/
theorem binstrRendersBitThirtyOneFirst : Obligations.BinstrRendersBitThirtyOneFirst := by
  intro word s
  refine ⟨bitString word, rfl, bitString_length word, fun k hk => ?_, ?_⟩
  · have hlt : k < (bitString word).length := by rwa [bitString_length]
    rw [List.getElem?_eq_getElem hlt, bitString_getElem]
    rfl
  · exact exec_binval_of_ok (binval_bitString none word) s

/-- Settles O24: each character after `0x` is the digit of a nibble, and a nibble is a base-sixteen digit. -/
theorem hexRendersNibblesMostSignificantFirst : Obligations.HexRendersNibblesMostSignificantFirst := by
  intro word s
  refine ⟨hex word, rfl, rfl, rfl, rfl, fun j hj => ?_⟩
  rw [hex_getElem? word hj, hexDigit_eq, nibble_toNat word j hj]

/-- Settles O26. -/
theorem hexsChecksLengthAndRendersBinaryContent : Obligations.HexsChecksLengthAndRendersBinaryContent := by
  intro str s
  refine ⟨exec_hexs_of_length_ne s, fun h => ?_, exec_hexs_of_not_isBinary s⟩
  refine ⟨BitVec.ofNat 32 (bitsValue str), _, fun k hk => getLsbD_bitsValue h.1 hk, ?_, rfl⟩
  rw [exec_hexs_of_isBinary s h]
  rfl

end Sys2Proof.Machine
end

section
/-! The assemblers: what each accepts, where layouts SB, U and UJ place each field and which bit they drop
(30_encoding.md R30 to R34), and the first fault (41_format_assemblers.md R50). -/

namespace Sys2Proof.Machine

/-! ## What an assembler accepts, field by field -/

/-- BINVAL gives a vector exactly on its rendering. -/
theorem binval_eq_ok_iff_bitString {field : Option FieldName} {str : Str} {w : Nat} {b : BitVec w} :
    binval field str w = .ok b ↔ str = bitString b := by
  constructor
  · intro h
    obtain ⟨hbinary, rfl⟩ := binval_eq_ok.1 h
    exact (bitString_bitsValue (isBinary_iff.2 hbinary)).symm
  · rintro rfl
    exact binval_bitString field b

/-- DEC2BIN gives a vector exactly on the numerals of its value. -/
theorem dec2bin_eq_ok_iff_denotes {field : Option FieldName} {str : Str} {w : Nat} {b : BitVec w} :
    dec2bin field str w = .ok b ↔ Denotes str b.toNat :=
  ⟨denotes_of_dec2bin, dec2bin_of_denotes field⟩

theorem assembleR_eq_ok {funct7S rs2S rs1S funct3S rdS opcodeS : Str} {w : Word} :
    assembleR funct7S rs2S rs1S funct3S rdS opcodeS = .ok w ↔
      ∃ funct7, funct7S = bitString funct7 ∧ ∃ rs2, Denotes rs2S rs2.toNat ∧ ∃ rs1, Denotes rs1S rs1.toNat ∧
      ∃ funct3, funct3S = bitString funct3 ∧ ∃ rd, Denotes rdS rd.toNat ∧ ∃ opcode, opcodeS = bitString opcode ∧
        packR funct7 rs2 rs1 funct3 rd opcode = w := by
  simp only [assembleR, Result.bind_eq_ok, Result.pure_eq, Except.ok.injEq, binval_eq_ok_iff_bitString,
    dec2bin_eq_ok_iff_denotes]

theorem assembleI_eq_ok {immS rs1S funct3S rdS opcodeS : Str} {w : Word} :
    assembleI immS rs1S funct3S rdS opcodeS = .ok w ↔
      ∃ imm, Denotes immS imm.toNat ∧ ∃ rs1, Denotes rs1S rs1.toNat ∧ ∃ funct3, funct3S = bitString funct3 ∧
      ∃ rd, Denotes rdS rd.toNat ∧ ∃ opcode, opcodeS = bitString opcode ∧ packI imm rs1 funct3 rd opcode = w := by
  simp only [assembleI, Result.bind_eq_ok, Result.pure_eq, Except.ok.injEq, binval_eq_ok_iff_bitString,
    dec2bin_eq_ok_iff_denotes]

theorem assembleS_eq_ok {immS rs2S rs1S funct3S opcodeS : Str} {w : Word} :
    assembleS immS rs2S rs1S funct3S opcodeS = .ok w ↔
      ∃ imm, Denotes immS imm.toNat ∧ ∃ rs2, Denotes rs2S rs2.toNat ∧ ∃ rs1, Denotes rs1S rs1.toNat ∧
      ∃ funct3, funct3S = bitString funct3 ∧ ∃ opcode, opcodeS = bitString opcode ∧
        packS imm rs2 rs1 funct3 opcode = w := by
  simp only [assembleS, Result.bind_eq_ok, Result.pure_eq, Except.ok.injEq, binval_eq_ok_iff_bitString,
    dec2bin_eq_ok_iff_denotes]

theorem assembleSB_eq_ok {immS rs2S rs1S funct3S opcodeS : Str} {w : Word} :
    assembleSB immS rs2S rs1S funct3S opcodeS = .ok w ↔
      ∃ imm, Denotes immS imm.toNat ∧ ∃ rs2, Denotes rs2S rs2.toNat ∧ ∃ rs1, Denotes rs1S rs1.toNat ∧
      ∃ funct3, funct3S = bitString funct3 ∧ ∃ opcode, opcodeS = bitString opcode ∧
        packSB imm rs2 rs1 funct3 opcode = w := by
  simp only [assembleSB, Result.bind_eq_ok, Result.pure_eq, Except.ok.injEq, binval_eq_ok_iff_bitString,
    dec2bin_eq_ok_iff_denotes]

theorem assembleU_eq_ok {immS rdS opcodeS : Str} {w : Word} :
    assembleU immS rdS opcodeS = .ok w ↔
      ∃ imm, Denotes immS imm.toNat ∧ ∃ rd, Denotes rdS rd.toNat ∧ ∃ opcode, opcodeS = bitString opcode ∧
        packU imm rd opcode = w := by
  simp only [assembleU, Result.bind_eq_ok, Result.pure_eq, Except.ok.injEq, binval_eq_ok_iff_bitString,
    dec2bin_eq_ok_iff_denotes]

theorem assembleUJ_eq_ok {immS rdS opcodeS : Str} {w : Word} :
    assembleUJ immS rdS opcodeS = .ok w ↔
      ∃ imm, Denotes immS imm.toNat ∧ ∃ rd, Denotes rdS rd.toNat ∧ ∃ opcode, opcodeS = bitString opcode ∧
        packUJ imm rd opcode = w := by
  simp only [assembleUJ, Result.bind_eq_ok, Result.pure_eq, Except.ok.injEq, binval_eq_ok_iff_bitString,
    dec2bin_eq_ok_iff_denotes]

/-! ## Assemblers on valid slots -/

/-- ENC.SB on numerals and renderings of its fields completes with layout SB of them (R54). -/
theorem exec_encSB_of_denotes {imm : BitVec 13} {rs2 rs1 : BitVec 5} (funct3 : BitVec 3) (opcode : BitVec 7)
    {immS rs2S rs1S : Str} (s : State)
    (himm : Denotes immS imm.toNat) (hrs2 : Denotes rs2S rs2.toNat) (hrs1 : Denotes rs1S rs1.toNat) :
    exec (.encSB immS rs2S rs1S (bitString funct3) (bitString opcode)) s
      = .next (s.sample (.word (packSB imm rs2 rs1 funct3 opcode))) :=
  exec_assemblerOf_of_ok (fmt := .SB) (q := ⟨[], immS, rs2S, rs1S, bitString funct3, bitString opcode, []⟩)
    (assembleSB_eq_ok.2 ⟨imm, himm, rs2, hrs2, rs1, hrs1, funct3, rfl, opcode, rfl, rfl⟩) s

/-- ENC.U on numerals and renderings of its fields completes with layout U of them (R55). -/
theorem exec_encU_of_denotes {imm : BitVec 20} {rd : BitVec 5} (opcode : BitVec 7) {immS rdS : Str} (s : State)
    (himm : Denotes immS imm.toNat) (hrd : Denotes rdS rd.toNat) :
    exec (.encU immS rdS (bitString opcode)) s = .next (s.sample (.word (packU imm rd opcode))) :=
  exec_assemblerOf_of_ok (fmt := .U) (q := ⟨[], immS, rdS, bitString opcode, [], [], []⟩)
    (assembleU_eq_ok.2 ⟨imm, himm, rd, hrd, opcode, rfl, rfl⟩) s

/-- ENC.UJ on numerals and renderings of its fields completes with layout UJ of them (R56). -/
theorem exec_encUJ_of_denotes {imm : BitVec 21} {rd : BitVec 5} (opcode : BitVec 7) {immS rdS : Str} (s : State)
    (himm : Denotes immS imm.toNat) (hrd : Denotes rdS rd.toNat) :
    exec (.encUJ immS rdS (bitString opcode)) s = .next (s.sample (.word (packUJ imm rd opcode))) :=
  exec_assemblerOf_of_ok (fmt := .UJ) (q := ⟨[], immS, rdS, bitString opcode, [], [], []⟩)
    (assembleUJ_eq_ok.2 ⟨imm, himm, rd, hrd, opcode, rfl, rfl⟩) s

/-! ## The three layouts by bit ranges -/

/-- The bit ranges of a word made of layout SB's eight contributions. -/
theorem extractLsb_of_toNat_eq_SB {w : Word} {x : BitVec 1} {y : BitVec 6} {rs2 rs1 : BitVec 5} {funct3 : BitVec 3}
    {z : BitVec 4} {u : BitVec 1} {opcode : BitVec 7}
    (h : w.toNat = x.toNat * 2 ^ 31 + y.toNat * 2 ^ 25 + rs2.toNat * 2 ^ 20 + rs1.toNat * 2 ^ 15
      + funct3.toNat * 2 ^ 12 + z.toNat * 2 ^ 8 + u.toNat * 2 ^ 7 + opcode.toNat) :
    w.extractLsb 31 31 = x ∧ w.extractLsb 30 25 = y ∧ w.extractLsb 24 20 = rs2 ∧ w.extractLsb 19 15 = rs1 ∧
    w.extractLsb 14 12 = funct3 ∧ w.extractLsb 11 8 = z ∧ w.extractLsb 7 7 = u ∧ w.extractLsb 6 0 = opcode := by
  simp only [extractLsb_eq_iff_toNat, h]
  refine ⟨?_, ?_, ?_, ?_, ?_, ?_, ?_, ?_⟩ <;> omega

/-- The bit ranges of a word made of layout UJ's six contributions. -/
theorem extractLsb_of_toNat_eq_UJ {w : Word} {x : BitVec 1} {y : BitVec 10} {z : BitVec 1} {u : BitVec 8}
    {rd : BitVec 5} {opcode : BitVec 7}
    (h : w.toNat = x.toNat * 2 ^ 31 + y.toNat * 2 ^ 21 + z.toNat * 2 ^ 20 + u.toNat * 2 ^ 12 + rd.toNat * 2 ^ 7
      + opcode.toNat) :
    w.extractLsb 31 31 = x ∧ w.extractLsb 30 21 = y ∧ w.extractLsb 20 20 = z ∧ w.extractLsb 19 12 = u ∧
    w.extractLsb 11 7 = rd ∧ w.extractLsb 6 0 = opcode := by
  simp only [extractLsb_eq_iff_toNat, h]
  refine ⟨?_, ?_, ?_, ?_, ?_, ?_⟩ <;> omega

/-- R30 by bit ranges. -/
theorem packSB_extractLsb (imm : BitVec 13) (rs2 rs1 : BitVec 5) (funct3 : BitVec 3) (opcode : BitVec 7) :
    (packSB imm rs2 rs1 funct3 opcode).extractLsb 31 31 = imm.extractLsb 12 12 ∧
    (packSB imm rs2 rs1 funct3 opcode).extractLsb 30 25 = imm.extractLsb 10 5 ∧
    (packSB imm rs2 rs1 funct3 opcode).extractLsb 24 20 = rs2 ∧
    (packSB imm rs2 rs1 funct3 opcode).extractLsb 19 15 = rs1 ∧
    (packSB imm rs2 rs1 funct3 opcode).extractLsb 14 12 = funct3 ∧
    (packSB imm rs2 rs1 funct3 opcode).extractLsb 11 8 = imm.extractLsb 4 1 ∧
    (packSB imm rs2 rs1 funct3 opcode).extractLsb 7 7 = imm.extractLsb 11 11 ∧
    (packSB imm rs2 rs1 funct3 opcode).extractLsb 6 0 = opcode := by
  refine extractLsb_of_toNat_eq_SB ?_
  rw [packSB_toNat]
  simp [BitVec.extractLsb_toNat, Nat.shiftRight_eq_div_pow]

/-- R31 by bit ranges. -/
theorem packU_extractLsb (imm : BitVec 20) (rd : BitVec 5) (opcode : BitVec 7) :
    (packU imm rd opcode).extractLsb 31 12 = imm ∧
    (packU imm rd opcode).extractLsb 11 7 = rd ∧
    (packU imm rd opcode).extractLsb 6 0 = opcode := by
  simp only [extractLsb_eq_iff_toNat, packU_toNat]
  refine ⟨?_, ?_, ?_⟩ <;> omega

/-- R32 by bit ranges. -/
theorem packUJ_extractLsb (imm : BitVec 21) (rd : BitVec 5) (opcode : BitVec 7) :
    (packUJ imm rd opcode).extractLsb 31 31 = imm.extractLsb 20 20 ∧
    (packUJ imm rd opcode).extractLsb 30 21 = imm.extractLsb 10 1 ∧
    (packUJ imm rd opcode).extractLsb 20 20 = imm.extractLsb 11 11 ∧
    (packUJ imm rd opcode).extractLsb 19 12 = imm.extractLsb 19 12 ∧
    (packUJ imm rd opcode).extractLsb 11 7 = rd ∧
    (packUJ imm rd opcode).extractLsb 6 0 = opcode := by
  refine extractLsb_of_toNat_eq_UJ ?_
  rw [packUJ_toNat]
  simp [BitVec.extractLsb_toNat, Nat.shiftRight_eq_div_pow]

/-! ## The three layouts by characters -/

/-- R30 by characters. -/
theorem bitString_packSB (imm : BitVec 13) (rs2 rs1 : BitVec 5) (funct3 : BitVec 3) (opcode : BitVec 7) :
    bitString (packSB imm rs2 rs1 funct3 opcode)
      = bitString (imm.extractLsb 12 12) ++ bitString (imm.extractLsb 10 5) ++ bitString rs2 ++ bitString rs1
        ++ bitString funct3 ++ bitString (imm.extractLsb 4 1) ++ bitString (imm.extractLsb 11 11)
        ++ bitString opcode := by
  simp only [← bitString_append]
  rfl

/-- R31 by characters. -/
theorem bitString_packU (imm : BitVec 20) (rd : BitVec 5) (opcode : BitVec 7) :
    bitString (packU imm rd opcode) = bitString imm ++ bitString rd ++ bitString opcode := by
  simp only [← bitString_append]
  rfl

/-- R32 by characters. -/
theorem bitString_packUJ (imm : BitVec 21) (rd : BitVec 5) (opcode : BitVec 7) :
    bitString (packUJ imm rd opcode)
      = bitString (imm.extractLsb 20 20) ++ bitString (imm.extractLsb 10 1) ++ bitString (imm.extractLsb 11 11)
        ++ bitString (imm.extractLsb 19 12) ++ bitString rd ++ bitString opcode := by
  simp only [← bitString_append]
  rfl

/-! ## Bit 0 of the SB and UJ immediates -/

/-- Layout SB reads of its immediate all bits but bit 0 (R34). -/
theorem packSB_eq_of_half_eq {imm imm' : BitVec 13} (h : imm.toNat / 2 = imm'.toNat / 2) (rs2 rs1 : BitVec 5)
    (funct3 : BitVec 3) (opcode : BitVec 7) : packSB imm rs2 rs1 funct3 opcode = packSB imm' rs2 rs1 funct3 opcode := by
  apply BitVec.eq_of_toNat_eq
  simp only [packSB_toNat]
  omega

/-- Layout UJ reads of its immediate all bits but bit 0 (R34). -/
theorem packUJ_eq_of_half_eq {imm imm' : BitVec 21} (h : imm.toNat / 2 = imm'.toNat / 2) (rd : BitVec 5)
    (opcode : BitVec 7) : packUJ imm rd opcode = packUJ imm' rd opcode := by
  apply BitVec.eq_of_toNat_eq
  simp only [packUJ_toNat]
  omega

/-- Two numerals in range whose values differ in bit 0 only give vectors that do so too. -/
theorem dec2bin_even_odd (field : Option FieldName) {w k : Nat} {even odd : Str} (hk : 2 * k + 1 < 2 ^ w)
    (heven : Denotes even (2 * k : Nat)) (hodd : Denotes odd (2 * k + 1 : Nat)) :
    ∃ b b' : BitVec w, dec2bin field even w = .ok b ∧ dec2bin field odd w = .ok b' ∧ b.toNat / 2 = b'.toNat / 2 := by
  let b : BitVec w := .ofNatLT (2 * k) (by omega)
  let b' : BitVec w := .ofNatLT (2 * k + 1) hk
  have hb : b.toNat = 2 * k := BitVec.toNat_ofNatLT ..
  have hb' : b'.toNat = 2 * k + 1 := BitVec.toNat_ofNatLT ..
  refine ⟨b, b', dec2bin_of_denotes field (hb ▸ heven), dec2bin_of_denotes field (hb' ▸ hodd), ?_⟩
  omega

/-- ENC.SB of an even immediate in range and of the odd one above it. -/
theorem exec_encSB_even_odd {k : Nat} {even odd : Str} (hk : k < 4096) (heven : Denotes even (2 * k : Nat))
    (hodd : Denotes odd (2 * k + 1 : Nat)) (rs2 rs1 funct3 opcode : Str) (s : State) :
    exec (.encSB even rs2 rs1 funct3 opcode) s = exec (.encSB odd rs2 rs1 funct3 opcode) s := by
  obtain ⟨b, b', hb, hb', hhalf⟩ := dec2bin_even_odd (some .imm) (w := 13) (by omega) heven hodd
  simp only [exec, execEncSB, assembleSB, hb, hb', Result.ok_bind, packSB_eq_of_half_eq hhalf]

/-- ENC.UJ of an even immediate in range and of the odd one above it. -/
theorem exec_encUJ_even_odd {k : Nat} {even odd : Str} (hk : k < 1048576) (heven : Denotes even (2 * k : Nat))
    (hodd : Denotes odd (2 * k + 1 : Nat)) (rd opcode : Str) (s : State) :
    exec (.encUJ even rd opcode) s = exec (.encUJ odd rd opcode) s := by
  obtain ⟨b, b', hb, hb', hhalf⟩ := dec2bin_even_odd (some .imm) (w := 21) (by omega) heven hodd
  simp only [exec, execEncUJ, assembleUJ, hb, hb', Result.ok_bind, packUJ_eq_of_half_eq hhalf]

theorem dec2bin_of_tooWide (field : Option FieldName) {str : Str} {w n : Nat} (hstr : Denotes str (n : Nat))
    (h : 2 ^ w ≤ n) : dec2bin field str w = .error ⟨.range, field, .tooWide⟩ := by
  rw [dec2bin_eq_dec2binInt field w hstr, dec2binInt_of_tooWide field (by exact_mod_cast h)]

/-- The first slot of ENC.SB is validated first, at width 13 (R50, R54). -/
theorem exec_encSB_of_tooWide {imm : Str} {n : Nat} (himm : Denotes imm n) (hn : 8192 ≤ n)
    (rs2 rs1 funct3 opcode : Str) (s : State) :
    exec (.encSB imm rs2 rs1 funct3 opcode) s = .next (s.sample (.failed ⟨.range, some .imm, .tooWide⟩)) := by
  simp [exec, execEncSB, assembleSB, dec2bin_of_tooWide (some .imm) (w := 13) himm hn]

/-- The first slot of ENC.UJ is validated first, at width 21 (R50, R56). -/
theorem exec_encUJ_of_tooWide {imm : Str} {n : Nat} (himm : Denotes imm n) (hn : 2097152 ≤ n)
    (rd opcode : Str) (s : State) :
    exec (.encUJ imm rd opcode) s = .next (s.sample (.failed ⟨.range, some .imm, .tooWide⟩)) := by
  simp [exec, execEncUJ, assembleUJ, dec2bin_of_tooWide (some .imm) (w := 21) himm hn]

/-! ## Slots without a fault -/

theorem slotFault_of_denotes {field : FieldName} {str : Str} {w n : Nat} (hstr : Denotes str n) (h : n < 2 ^ w) :
    slotFault ⟨field, .dec w⟩ str = none := by
  have hlt : ¬ (2 : Int) ^ w ≤ n := not_le.2 (by exact_mod_cast h)
  simp [slotFault, hstr.1, hstr.2, hlt]

theorem slotFault_of_isBinary {field : FieldName} {str : Str} {w : Nat} (h : IsBinary str w) :
    slotFault ⟨field, .bin w⟩ str = none :=
  if_pos (isBinary_iff.1 h)

/-- An assembler gives a word where no slot is faulty (R50). -/
theorem exists_exec_assemblerOf_of_firstFault {fmt : Format} {q : Request} (h : firstFault fmt q = none) (s : State) :
    ∃ w : Word, exec (assemblerOf fmt q) s = .next (s.sample (.word w)) := by
  obtain ⟨w, hw⟩ := exists_assemble_eq_ok_iff.2 h
  exact ⟨w, exec_assemblerOf_of_ok hw s⟩

/-- ENC.SB completes where each slot is valid. -/
theorem exists_exec_encSB {imm rs2 rs1 funct3 opcode : Str} {n : Nat} (s : State) (himm : Denotes imm n)
    (hn : n < 8192) (hrs2 : slotFault ⟨.rs2, .dec 5⟩ rs2 = none) (hrs1 : slotFault ⟨.rs1, .dec 5⟩ rs1 = none)
    (hfunct3 : IsBinary funct3 3) (hopcode : IsBinary opcode 7) :
    ∃ w : Word, exec (.encSB imm rs2 rs1 funct3 opcode) s = .next (s.sample (.word w)) := by
  refine exists_exec_assemblerOf_of_firstFault (fmt := .SB) (q := ⟨[], imm, rs2, rs1, funct3, opcode, []⟩) ?_ s
  simp [firstFault, readSlots, slotTable, slotStrings, slotFault_of_denotes (w := 13) himm hn, hrs2, hrs1,
    slotFault_of_isBinary hfunct3, slotFault_of_isBinary hopcode]

/-- ENC.UJ completes where each slot is valid. -/
theorem exists_exec_encUJ {imm rd opcode : Str} {n : Nat} (s : State) (himm : Denotes imm n) (hn : n < 2097152)
    (hrd : slotFault ⟨.rd, .dec 5⟩ rd = none) (hopcode : IsBinary opcode 7) :
    ∃ w : Word, exec (.encUJ imm rd opcode) s = .next (s.sample (.word w)) := by
  refine exists_exec_assemblerOf_of_firstFault (fmt := .UJ) (q := ⟨[], imm, rd, opcode, [], [], []⟩) ?_ s
  simp [firstFault, readSlots, slotTable, slotStrings, slotFault_of_denotes (w := 21) himm hn, hrd,
    slotFault_of_isBinary hopcode]

/-! ## The obligations -/

/-- Settles O30: the word is layout SB of the fields. -/
theorem encSBPlacesEveryField : Obligations.EncSBPlacesEveryField := by
  intro imm rs2 rs1 funct3 opcode immS rs2S rs1S s himm hrs2 hrs1
  obtain ⟨h12, h10, h2, h1, hf3, h4, h11, hop⟩ := packSB_extractLsb imm rs2 rs1 funct3 opcode
  exact ⟨_, exec_encSB_of_denotes funct3 opcode s himm hrs2 hrs1, h12, h10, h2, h1, hf3, h4, h11, hop,
    bitString_packSB ..⟩

/-- Settles O31: the word is layout U of the fields. -/
theorem encUPlacesEveryField : Obligations.EncUPlacesEveryField := by
  intro imm rd opcode immS rdS s himm hrd
  obtain ⟨hi, hd, hop⟩ := packU_extractLsb imm rd opcode
  exact ⟨_, exec_encU_of_denotes opcode s himm hrd, hi, hd, hop, bitString_packU ..⟩

/-- Settles O32: the word is layout UJ of the fields. -/
theorem encUJPlacesEveryField : Obligations.EncUJPlacesEveryField := by
  intro imm rd opcode immS rdS s himm hrd
  obtain ⟨h20, h10, h11, h19, hd, hop⟩ := packUJ_extractLsb imm rd opcode
  exact ⟨_, exec_encUJ_of_denotes opcode s himm hrd, h20, h10, h11, h19, hd, hop, bitString_packUJ ..⟩

/-- Settles O33: no layout reads bit 0, and the range check reads every bit. -/
theorem bitZeroOfBranchAndJumpImmediatesIsDropped : Obligations.BitZeroOfBranchAndJumpImmediatesIsDropped := by
  intro k even odd s heven hodd
  refine ⟨fun hk rs2 rs1 funct3 opcode => ?_, fun hk rd opcode => ?_, fun hk rs2 rs1 funct3 opcode => ?_,
    fun hk rd opcode => ?_⟩
  · have hsame := exec_encSB_even_odd hk heven hodd rs2 rs1 funct3 opcode s
    refine ⟨hsame, fun hrs2 hrs1 hfunct3 hopcode => ?_⟩
    obtain ⟨w, hw⟩ := exists_exec_encSB s heven (by omega) hrs2 hrs1 hfunct3 hopcode
    exact ⟨w, hw, hsame ▸ hw⟩
  · have hsame := exec_encUJ_even_odd hk heven hodd rd opcode s
    refine ⟨hsame, fun hrd hopcode => ?_⟩
    obtain ⟨w, hw⟩ := exists_exec_encUJ s heven (by omega) hrd hopcode
    exact ⟨w, hw, hsame ▸ hw⟩
  · exact ⟨exec_encSB_of_tooWide heven (by omega) rs2 rs1 funct3 opcode s,
      exec_encSB_of_tooWide hodd (by omega) rs2 rs1 funct3 opcode s⟩
  · exact ⟨exec_encUJ_of_tooWide heven (by omega) rd opcode s, exec_encUJ_of_tooWide hodd (by omega) rd opcode s⟩

/-- Settles O37: an assembler and the first fault of its slots agree. -/
theorem assemblersReportTheFirstFault : Obligations.AssemblersReportTheFirstFault := fun _ _ s =>
  ⟨fun _ hfault => exec_assemblerOf_of_error (assemble_eq_error_iff.2 hfault) s,
    fun hvalid => exists_exec_assemblerOf_of_firstFault hvalid s⟩

end Sys2Proof.Machine
end

section
/-! The word and the fields: each word is some request's, and it determines the fields (30_encoding.md R35). -/

namespace Sys2Proof.Machine

/-! ## Every word is a layout of some fields -/

theorem exists_packR (w : Word) : ∃ funct7 rs2 rs1 funct3 rd opcode, packR funct7 rs2 rs1 funct3 rd opcode = w := by
  refine ⟨w.extractLsb 31 25, w.extractLsb 24 20, w.extractLsb 19 15, w.extractLsb 14 12, w.extractLsb 11 7,
    w.extractLsb 6 0, BitVec.eq_of_toNat_eq ?_⟩
  simp only [packR_toNat, BitVec.extractLsb_toNat, Nat.shiftRight_eq_div_pow]
  omega

theorem exists_packI (w : Word) : ∃ imm rs1 funct3 rd opcode, packI imm rs1 funct3 rd opcode = w := by
  refine ⟨w.extractLsb 31 20, w.extractLsb 19 15, w.extractLsb 14 12, w.extractLsb 11 7, w.extractLsb 6 0,
    BitVec.eq_of_toNat_eq ?_⟩
  simp only [packI_toNat, BitVec.extractLsb_toNat, Nat.shiftRight_eq_div_pow]
  omega

/-- Layout S is layout R, whose `funct7` and `rd` together are an immediate. -/
theorem exists_packS (w : Word) : ∃ imm rs2 rs1 funct3 opcode, packS imm rs2 rs1 funct3 opcode = w := by
  obtain ⟨high, rs2, rs1, funct3, low, opcode, rfl⟩ := exists_packR w
  refine ⟨high ++ low, rs2, rs1, funct3, opcode, ?_⟩
  have hhigh : (high ++ low).extractLsb 11 5 = high := by
    rw [extractLsb_eq_iff_toNat, toNat_append_eq]
    omega
  have hlow : (high ++ low).extractLsb 4 0 = low := by
    rw [extractLsb_eq_iff_toNat, toNat_append_eq]
    omega
  rw [packS_eq, hhigh, hlow]

/-- Layout SB's contributions of an immediate are any four vectors of their widths. -/
theorem exists_imm_packSB (x : BitVec 1) (y : BitVec 6) (z : BitVec 4) (u : BitVec 1) :
    ∃ imm : BitVec 13, ∀ (rs2 rs1 : BitVec 5) (funct3 : BitVec 3) (opcode : BitVec 7),
      (packSB imm rs2 rs1 funct3 opcode).toNat = x.toNat * 2 ^ 31 + y.toNat * 2 ^ 25 + rs2.toNat * 2 ^ 20
        + rs1.toNat * 2 ^ 15 + funct3.toNat * 2 ^ 12 + z.toNat * 2 ^ 8 + u.toNat * 2 ^ 7 + opcode.toNat := by
  obtain ⟨imm, himm⟩ : ∃ imm : BitVec 13,
      imm.toNat = x.toNat * 2 ^ 12 + u.toNat * 2 ^ 11 + y.toNat * 2 ^ 5 + z.toNat * 2 :=
    ⟨.ofNatLT _ (by omega), BitVec.toNat_ofNatLT ..⟩
  have h12 : imm.toNat / 2 ^ 12 % 2 = x.toNat := by omega
  have h10 : imm.toNat / 2 ^ 5 % 2 ^ 6 = y.toNat := by omega
  have h4 : imm.toNat / 2 % 2 ^ 4 = z.toNat := by omega
  have h11 : imm.toNat / 2 ^ 11 % 2 = u.toNat := by omega
  exact ⟨imm, fun rs2 rs1 funct3 opcode => by rw [packSB_toNat, h12, h10, h4, h11]⟩

theorem exists_packSB (w : Word) : ∃ imm rs2 rs1 funct3 opcode, packSB imm rs2 rs1 funct3 opcode = w := by
  obtain ⟨imm, himm⟩ := exists_imm_packSB (w.extractLsb 31 31) (w.extractLsb 30 25) (w.extractLsb 11 8)
    (w.extractLsb 7 7)
  refine ⟨imm, w.extractLsb 24 20, w.extractLsb 19 15, w.extractLsb 14 12, w.extractLsb 6 0,
    BitVec.eq_of_toNat_eq ?_⟩
  simp only [himm, BitVec.extractLsb_toNat, Nat.shiftRight_eq_div_pow]
  omega

theorem exists_packU (w : Word) : ∃ imm rd opcode, packU imm rd opcode = w := by
  refine ⟨w.extractLsb 31 12, w.extractLsb 11 7, w.extractLsb 6 0, BitVec.eq_of_toNat_eq ?_⟩
  simp only [packU_toNat, BitVec.extractLsb_toNat, Nat.shiftRight_eq_div_pow]
  omega

/-- Layout UJ's contributions of an immediate are any four vectors of their widths. -/
theorem exists_imm_packUJ (x : BitVec 1) (y : BitVec 10) (z : BitVec 1) (u : BitVec 8) :
    ∃ imm : BitVec 21, ∀ (rd : BitVec 5) (opcode : BitVec 7),
      (packUJ imm rd opcode).toNat = x.toNat * 2 ^ 31 + y.toNat * 2 ^ 21 + z.toNat * 2 ^ 20 + u.toNat * 2 ^ 12
        + rd.toNat * 2 ^ 7 + opcode.toNat := by
  obtain ⟨imm, himm⟩ : ∃ imm : BitVec 21,
      imm.toNat = x.toNat * 2 ^ 20 + u.toNat * 2 ^ 12 + z.toNat * 2 ^ 11 + y.toNat * 2 :=
    ⟨.ofNatLT _ (by omega), BitVec.toNat_ofNatLT ..⟩
  have h20 : imm.toNat / 2 ^ 20 % 2 = x.toNat := by omega
  have h10 : imm.toNat / 2 % 2 ^ 10 = y.toNat := by omega
  have h11 : imm.toNat / 2 ^ 11 % 2 = z.toNat := by omega
  have h19 : imm.toNat / 2 ^ 12 % 2 ^ 8 = u.toNat := by omega
  exact ⟨imm, fun rd opcode => by rw [packUJ_toNat, h20, h10, h11, h19]⟩

theorem exists_packUJ (w : Word) : ∃ imm rd opcode, packUJ imm rd opcode = w := by
  obtain ⟨imm, himm⟩ := exists_imm_packUJ (w.extractLsb 31 31) (w.extractLsb 30 21) (w.extractLsb 20 20)
    (w.extractLsb 19 12)
  refine ⟨imm, w.extractLsb 11 7, w.extractLsb 6 0, BitVec.eq_of_toNat_eq ?_⟩
  simp only [himm, BitVec.extractLsb_toNat, Nat.shiftRight_eq_div_pow]
  omega

/-- One accepted tag of each format (R26). -/
def formatTag : Format → Str
  | .R  => [chR]
  | .I  => [chI]
  | .S  => [chS]
  | .SB => [chS, chB]
  | .U  => [chU]
  | .UJ => [chU, chJ]

theorem formatTag_mem (fmt : Format) : (formatTag fmt, fmt) ∈ acceptedTags := by
  cases fmt <;> decide

/-- For each format some request's assembler gives the word (R35 b). -/
theorem exists_request_of_word (fmt : Format) (w : Word) :
    ∃ q : Request, (q.tag, fmt) ∈ acceptedTags ∧ assemble fmt q = .ok w := by
  choose numeral _ hnumeral using exists_numeral
  cases fmt with
  | R =>
    obtain ⟨f7, rs2, rs1, f3, rd, op, hw⟩ := exists_packR w
    exact ⟨⟨formatTag .R, bitString f7, numeral rs2.toNat, numeral rs1.toNat, bitString f3, numeral rd.toNat,
      bitString op⟩, formatTag_mem .R,
      assembleR_eq_ok.2 ⟨f7, rfl, rs2, hnumeral _, rs1, hnumeral _, f3, rfl, rd, hnumeral _, op, rfl, hw⟩⟩
  | I =>
    obtain ⟨imm, rs1, f3, rd, op, hw⟩ := exists_packI w
    exact ⟨⟨formatTag .I, numeral imm.toNat, numeral rs1.toNat, bitString f3, numeral rd.toNat, bitString op, []⟩,
      formatTag_mem .I, assembleI_eq_ok.2 ⟨imm, hnumeral _, rs1, hnumeral _, f3, rfl, rd, hnumeral _, op, rfl, hw⟩⟩
  | S =>
    obtain ⟨imm, rs2, rs1, f3, op, hw⟩ := exists_packS w
    exact ⟨⟨formatTag .S, numeral imm.toNat, numeral rs2.toNat, numeral rs1.toNat, bitString f3, bitString op, []⟩,
      formatTag_mem .S, assembleS_eq_ok.2 ⟨imm, hnumeral _, rs2, hnumeral _, rs1, hnumeral _, f3, rfl, op, rfl, hw⟩⟩
  | SB =>
    obtain ⟨imm, rs2, rs1, f3, op, hw⟩ := exists_packSB w
    exact ⟨⟨formatTag .SB, numeral imm.toNat, numeral rs2.toNat, numeral rs1.toNat, bitString f3, bitString op, []⟩,
      formatTag_mem .SB, assembleSB_eq_ok.2 ⟨imm, hnumeral _, rs2, hnumeral _, rs1, hnumeral _, f3, rfl, op, rfl, hw⟩⟩
  | U =>
    obtain ⟨imm, rd, op, hw⟩ := exists_packU w
    exact ⟨⟨formatTag .U, numeral imm.toNat, numeral rd.toNat, bitString op, [], [], []⟩,
      formatTag_mem .U, assembleU_eq_ok.2 ⟨imm, hnumeral _, rd, hnumeral _, op, rfl, hw⟩⟩
  | UJ =>
    obtain ⟨imm, rd, op, hw⟩ := exists_packUJ w
    exact ⟨⟨formatTag .UJ, numeral imm.toNat, numeral rd.toNat, bitString op, [], [], []⟩,
      formatTag_mem .UJ, assembleUJ_eq_ok.2 ⟨imm, hnumeral _, rd, hnumeral _, op, rfl, hw⟩⟩

/-! ## The word determines the fields -/

theorem packR_injective {funct7 funct7' : BitVec 7} {rs2 rs2' rs1 rs1' : BitVec 5} {funct3 funct3' : BitVec 3}
    {rd rd' : BitVec 5} {opcode opcode' : BitVec 7}
    (h : packR funct7 rs2 rs1 funct3 rd opcode = packR funct7' rs2' rs1' funct3' rd' opcode') :
    funct7 = funct7' ∧ rs2 = rs2' ∧ rs1 = rs1' ∧ funct3 = funct3' ∧ rd = rd' ∧ opcode = opcode' := by
  obtain ⟨hf7, h2, h1, hf3, hd, hop⟩ := packR_extractLsb funct7 rs2 rs1 funct3 rd opcode
  obtain ⟨hf7', h2', h1', hf3', hd', hop'⟩ := packR_extractLsb funct7' rs2' rs1' funct3' rd' opcode'
  rw [h] at hf7 h2 h1 hf3 hd hop
  exact ⟨hf7.symm.trans hf7', h2.symm.trans h2', h1.symm.trans h1', hf3.symm.trans hf3', hd.symm.trans hd',
    hop.symm.trans hop'⟩

theorem packI_injective {imm imm' : BitVec 12} {rs1 rs1' : BitVec 5} {funct3 funct3' : BitVec 3}
    {rd rd' : BitVec 5} {opcode opcode' : BitVec 7}
    (h : packI imm rs1 funct3 rd opcode = packI imm' rs1' funct3' rd' opcode') :
    imm = imm' ∧ rs1 = rs1' ∧ funct3 = funct3' ∧ rd = rd' ∧ opcode = opcode' := by
  obtain ⟨hi, h1, hf3, hd, hop⟩ := packI_extractLsb imm rs1 funct3 rd opcode
  obtain ⟨hi', h1', hf3', hd', hop'⟩ := packI_extractLsb imm' rs1' funct3' rd' opcode'
  rw [h] at hi h1 hf3 hd hop
  exact ⟨hi.symm.trans hi', h1.symm.trans h1', hf3.symm.trans hf3', hd.symm.trans hd', hop.symm.trans hop'⟩

/-- Two bit ranges that make up a 12-bit vector determine it. -/
theorem eq_of_extractLsb_eq {imm imm' : BitVec 12} (hhigh : imm.extractLsb 11 5 = imm'.extractLsb 11 5)
    (hlow : imm.extractLsb 4 0 = imm'.extractLsb 4 0) : imm = imm' := by
  rw [extractLsb_eq_iff_toNat, BitVec.extractLsb_toNat, Nat.shiftRight_eq_div_pow] at hhigh hlow
  apply BitVec.eq_of_toNat_eq
  omega

theorem packS_injective {imm imm' : BitVec 12} {rs2 rs2' rs1 rs1' : BitVec 5} {funct3 funct3' : BitVec 3}
    {opcode opcode' : BitVec 7} (h : packS imm rs2 rs1 funct3 opcode = packS imm' rs2' rs1' funct3' opcode') :
    imm = imm' ∧ rs2 = rs2' ∧ rs1 = rs1' ∧ funct3 = funct3' ∧ opcode = opcode' := by
  rw [packS_eq, packS_eq] at h
  obtain ⟨hhigh, h2, h1, hf3, hlow, hop⟩ := packR_injective h
  exact ⟨eq_of_extractLsb_eq hhigh hlow, h2, h1, hf3, hop⟩

/-- Layout SB determines its immediate up to bit 0 (R34, R35 a). -/
theorem packSB_injective {imm imm' : BitVec 13} {rs2 rs2' rs1 rs1' : BitVec 5} {funct3 funct3' : BitVec 3}
    {opcode opcode' : BitVec 7} (h : packSB imm rs2 rs1 funct3 opcode = packSB imm' rs2' rs1' funct3' opcode') :
    imm.toNat / 2 = imm'.toNat / 2 ∧ rs2 = rs2' ∧ rs1 = rs1' ∧ funct3 = funct3' ∧ opcode = opcode' := by
  obtain ⟨h12, h10, h2, h1, hf3, h4, h11, hop⟩ := packSB_extractLsb imm rs2 rs1 funct3 opcode
  obtain ⟨h12', h10', h2', h1', hf3', h4', h11', hop'⟩ := packSB_extractLsb imm' rs2' rs1' funct3' opcode'
  rw [h] at h12 h10 h2 h1 hf3 h4 h11 hop
  refine ⟨?_, h2.symm.trans h2', h1.symm.trans h1', hf3.symm.trans hf3', hop.symm.trans hop'⟩
  have e12 := h12.symm.trans h12'
  have e10 := h10.symm.trans h10'
  have e4 := h4.symm.trans h4'
  have e11 := h11.symm.trans h11'
  rw [extractLsb_eq_iff_toNat, BitVec.extractLsb_toNat, Nat.shiftRight_eq_div_pow] at e12 e10 e4 e11
  omega

theorem packU_injective {imm imm' : BitVec 20} {rd rd' : BitVec 5} {opcode opcode' : BitVec 7}
    (h : packU imm rd opcode = packU imm' rd' opcode') : imm = imm' ∧ rd = rd' ∧ opcode = opcode' := by
  obtain ⟨hi, hd, hop⟩ := packU_extractLsb imm rd opcode
  obtain ⟨hi', hd', hop'⟩ := packU_extractLsb imm' rd' opcode'
  rw [h] at hi hd hop
  exact ⟨hi.symm.trans hi', hd.symm.trans hd', hop.symm.trans hop'⟩

/-- Layout UJ determines its immediate up to bit 0 (R34, R35 a). -/
theorem packUJ_injective {imm imm' : BitVec 21} {rd rd' : BitVec 5} {opcode opcode' : BitVec 7}
    (h : packUJ imm rd opcode = packUJ imm' rd' opcode') :
    imm.toNat / 2 = imm'.toNat / 2 ∧ rd = rd' ∧ opcode = opcode' := by
  obtain ⟨h20, h10, h11, h19, hd, hop⟩ := packUJ_extractLsb imm rd opcode
  obtain ⟨h20', h10', h11', h19', hd', hop'⟩ := packUJ_extractLsb imm' rd' opcode'
  rw [h] at h20 h10 h11 h19 hd hop
  refine ⟨?_, hd.symm.trans hd', hop.symm.trans hop'⟩
  have e20 := h20.symm.trans h20'
  have e10 := h10.symm.trans h10'
  have e11 := h11.symm.trans h11'
  have e19 := h19.symm.trans h19'
  rw [extractLsb_eq_iff_toNat, BitVec.extractLsb_toNat, Nat.shiftRight_eq_div_pow] at e20 e10 e11 e19
  omega

/-- Two requests that one assembler gives one word for carry the same field in each slot below the arity (R35 a). -/
theorem sameField_of_assemble {fmt : Format} {q q' : Request} {w : Word} (h : assemble fmt q = .ok w)
    (h' : assemble fmt q' = .ok w) :
    ∀ x ∈ (slotTable fmt).zip ((slotStrings q).zip (slotStrings q')), sameField fmt x.1 x.2.1 x.2.2 := by
  cases fmt with
  | R =>
    obtain ⟨_, e0, _, ⟨-, e1⟩, _, ⟨-, e2⟩, _, e3, _, ⟨-, e4⟩, _, e5, hw⟩ := assembleR_eq_ok.1 h
    obtain ⟨_, e0', _, ⟨-, e1'⟩, _, ⟨-, e2'⟩, _, e3', _, ⟨-, e4'⟩, _, e5', hw'⟩ := assembleR_eq_ok.1 h'
    obtain ⟨rfl, rfl, rfl, rfl, rfl, rfl⟩ := packR_injective (hw.trans hw'.symm)
    simp [slotTable, slotStrings, sameField, e0, e0', e1, e1', e2, e2', e3, e3', e4, e4', e5, e5']
  | I =>
    obtain ⟨_, ⟨-, e0⟩, _, ⟨-, e1⟩, _, e2, _, ⟨-, e3⟩, _, e4, hw⟩ := assembleI_eq_ok.1 h
    obtain ⟨_, ⟨-, e0'⟩, _, ⟨-, e1'⟩, _, e2', _, ⟨-, e3'⟩, _, e4', hw'⟩ := assembleI_eq_ok.1 h'
    obtain ⟨rfl, rfl, rfl, rfl, rfl⟩ := packI_injective (hw.trans hw'.symm)
    simp [slotTable, slotStrings, sameField, e0, e0', e1, e1', e2, e2', e3, e3', e4, e4']
  | S =>
    obtain ⟨_, ⟨-, e0⟩, _, ⟨-, e1⟩, _, ⟨-, e2⟩, _, e3, _, e4, hw⟩ := assembleS_eq_ok.1 h
    obtain ⟨_, ⟨-, e0'⟩, _, ⟨-, e1'⟩, _, ⟨-, e2'⟩, _, e3', _, e4', hw'⟩ := assembleS_eq_ok.1 h'
    obtain ⟨rfl, rfl, rfl, rfl, rfl⟩ := packS_injective (hw.trans hw'.symm)
    simp [slotTable, slotStrings, sameField, e0, e0', e1, e1', e2, e2', e3, e3', e4, e4']
  | SB =>
    obtain ⟨_, ⟨-, e0⟩, _, ⟨-, e1⟩, _, ⟨-, e2⟩, _, e3, _, e4, hw⟩ := assembleSB_eq_ok.1 h
    obtain ⟨_, ⟨-, e0'⟩, _, ⟨-, e1'⟩, _, ⟨-, e2'⟩, _, e3', _, e4', hw'⟩ := assembleSB_eq_ok.1 h'
    obtain ⟨hhalf, rfl, rfl, rfl, rfl⟩ := packSB_injective (hw.trans hw'.symm)
    have hvalue : decimalValue q.slot0 / 2 = decimalValue q'.slot0 / 2 := by
      rw [e0, e0']
      omega
    simp [slotTable, slotStrings, sameField, hvalue, e1, e1', e2, e2', e3, e3', e4, e4']
  | U =>
    obtain ⟨_, ⟨-, e0⟩, _, ⟨-, e1⟩, _, e2, hw⟩ := assembleU_eq_ok.1 h
    obtain ⟨_, ⟨-, e0'⟩, _, ⟨-, e1'⟩, _, e2', hw'⟩ := assembleU_eq_ok.1 h'
    obtain ⟨rfl, rfl, rfl⟩ := packU_injective (hw.trans hw'.symm)
    simp [slotTable, slotStrings, sameField, e0, e0', e1, e1', e2, e2']
  | UJ =>
    obtain ⟨_, ⟨-, e0⟩, _, ⟨-, e1⟩, _, e2, hw⟩ := assembleUJ_eq_ok.1 h
    obtain ⟨_, ⟨-, e0'⟩, _, ⟨-, e1'⟩, _, e2', hw'⟩ := assembleUJ_eq_ok.1 h'
    obtain ⟨hhalf, rfl, rfl⟩ := packUJ_injective (hw.trans hw'.symm)
    have hvalue : decimalValue q.slot0 / 2 = decimalValue q'.slot0 / 2 := by
      rw [e0, e0']
      omega
    simp [slotTable, slotStrings, sameField, hvalue, e1, e1', e2, e2']

/-! ## Shift immediates -/

/-- Layout I with an immediate of 32 times the upper bits plus the amount is layout R with the amount as `rs2` (R52). -/
theorem packI_append (upper : BitVec 7) (amount rs1 : BitVec 5) (funct3 : BitVec 3) (rd : BitVec 5)
    (opcode : BitVec 7) : packI (upper ++ amount) rs1 funct3 rd opcode = packR upper amount rs1 funct3 rd opcode := rfl

theorem assembleI_eq_assembleR {upper : BitVec 7} {amount : BitVec 5} {immS amountS : Str}
    (himm : Denotes immS (upper ++ amount).toNat) (hamount : Denotes amountS amount.toNat)
    (rs1 funct3 rd opcode : Str) :
    assembleI immS rs1 funct3 rd opcode = assembleR (bitString upper) amountS rs1 funct3 rd opcode := by
  simp only [assembleI, assembleR, dec2bin_of_denotes _ himm, dec2bin_of_denotes _ hamount, binval_bitString,
    Result.ok_bind, packI_append]

/-! ## The obligations -/

/-- Settles O34: what an assembler gives ENCODE renders. -/
theorem everyWordIsTheOutputOfSomeRequest : Obligations.EveryWordIsTheOutputOfSomeRequest := by
  intro fmt w
  obtain ⟨q, htag, hword⟩ := exists_request_of_word fmt w
  refine ⟨q, htag, fun s => ?_⟩
  rw [exec_encode, encodeRequest_of_assemble htag hword]
  rfl

/-- Settles O35: each layout is injective, but for bit 0 of the SB and UJ immediates. -/
theorem theWordDeterminesEveryField : Obligations.TheWordDeterminesEveryField := by
  intro fmt q q' s w h h' i spec a b hspec ha hb
  have hsame := sameField_of_assemble (exec_assemblerOf_eq_word_iff.1 h) (exec_assemblerOf_eq_word_iff.1 h')
  have hslots : ((slotStrings q).zip (slotStrings q'))[i]? = some (a, b) := List.getElem?_zip_eq_some.2 ⟨ha, hb⟩
  have hcell : ((slotTable fmt).zip ((slotStrings q).zip (slotStrings q')))[i]? = some (spec, a, b) :=
    List.getElem?_zip_eq_some.2 ⟨hspec, hslots⟩
  exact hsame _ (List.mem_of_getElem? hcell)

/-- Settles O36: both formats read the same bits, format I as one immediate. -/
theorem shiftImmediatesThroughEitherFormat : Obligations.ShiftImmediatesThroughEitherFormat := by
  intro upper amount immS amountS rs1 funct3 rd opcode s hlt hamount himm
  have htoNat : (BitVec.ofNatLT amount hlt : BitVec 5).toNat = amount := BitVec.toNat_ofNatLT ..
  have happend : (upper ++ (BitVec.ofNatLT amount hlt : BitVec 5)).toNat = 32 * upper.toNat + amount := by
    rw [toNat_append_eq, htoNat]
    omega
  rw [← happend] at himm
  rw [← htoNat] at hamount
  simp only [exec, execEncI, execEncR, assembleI_eq_assembleR himm hamount]

end Sys2Proof.Machine
end
